-- ==== Sys2Proof/Word.lean ====
section
/-! DEFINITION. The data types of 00_scope.md rule R12: bytes, bit sequences, byte sequences, the block. -/

namespace Sys2Proof

/-- `Byte` of rule R12: a natural below 256. A character is the byte holding its ASCII code. -/
abbrev Byte := BitVec 8

/-- `Bits n` of rule R12, n being the list's length: element 0 is the first, most significant bit (rule R14). -/
abbrev Bits := List Bool

/-- `Bytes` of rule R12: a finite sequence of bytes, index 0 first. -/
abbrev Bytes := List Byte

/-- The 168-bit Common Navigation Block on its bus: bus bit 167 is `BLK⟨0⟩` (rule R15). -/
abbrev Block := BitVec 168

end Sys2Proof
end

