-- ==== Sys2Proof/Machine/Bits.lean ====
section
/-! DEFINITION. The sequence and arithmetic primitives of 00_scope.md rules R13 to R17: bit values, slices, byte
lanes, truncation, the integer square root. -/

namespace Sys2Proof.Machine

/-- `val_u` of 00_scope.md rule R14: the sum of `b⟨i⟩ · 2^(n−1−i)`, first bit most significant. -/
def valU : Bits → Nat
  | [] => 0
  | b :: bs => b.toNat * 2 ^ bs.length + valU bs

/-- `val_s` of 00_scope.md rule R17: `val_u(b) − 2^n · b⟨0⟩`. -/
def valS (b : Bits) : Int :=
  (valU b : Int) - ((2 ^ b.length * (b.headD false).toNat : Nat) : Int)

/-- `bitsof(u, n)` of 00_scope.md rule R14, the `n` low bits of `u`, most significant first. -/
def bitsOf (u : Nat) : Nat → Bits
  | 0 => []
  | n + 1 => u.testBit n :: bitsOf u n

/-- `zext_N` of 00_scope.md rule R17. -/
def zext (width : Nat) (b : Bits) : Bits := bitsOf (valU b) width

/-- `sext_N` of 00_scope.md rule R17. -/
def sext (width : Nat) (b : Bits) : Bits := bitsOf (valS b % ((2 ^ width : Nat) : Int)).toNat width

/-- `s⟨i..j⟩` of 00_scope.md rule R13. -/
def slice {α : Type} (s : List α) (i j : Nat) : List α := (s.drop i).take (j - i)

/-- `n` zero bits (41_sixbit_armor.md rule R163). -/
def zeros (n : Nat) : Bits := List.replicate n false

/-- `trunc` of 00_scope.md rule R16: rounding toward zero. -/
def trunc (q : Rat) : Int := if 0 ≤ q then q.floor else -(-q).floor

/-- `trunc(k · q)` with the exact product `k·num/den` (43_navblock_encode.md rule R207): the fraction of
`k·num` over `den` is discarded toward zero. -/
def truncMul (k : Nat) (q : Rat) : Int := ((k : Int) * q.num).tdiv q.den

/-- The search of `isqrt`: `r` grows by the powers of two below `2^k` that keep its square at most `n`. -/
def isqrtFrom (n : Nat) : Nat → Nat → Nat
  | 0, r => r
  | k + 1, r => if (r + 2 ^ k) * (r + 2 ^ k) ≤ n then isqrtFrom n k (r + 2 ^ k) else isqrtFrom n k r

/-- `isqrt` of 00_scope.md rule R16: the largest natural whose square is at most `n`. -/
def isqrt (n : Nat) : Nat := isqrtFrom n (n.log2 / 2 + 1) 0

/-- Byte lane `j` of a lane bus: 10_state.md rule R38, "byte j of the sequence on byte lane j". -/
def lane (bus j : Nat) : Byte := BitVec.ofNat 8 (bus >>> (8 * j))

/-- The first `n` byte lanes of a lane bus. -/
def lanes (bus n : Nat) : Bytes := (List.range n).map (lane bus)

/-- The lane bus that carries a byte sequence, byte 0 on lane 0. -/
def laneBus : Bytes → Nat
  | [] => 0
  | c :: cs => c.toNat + 256 * laneBus cs

/-- The two's-complement value of the low `width` wires of a bus (00_scope.md rules R15 and R17). -/
def signedBus (width bus : Nat) : Int := valS (bitsOf bus width)

/-- The pattern that presents an integer on a two's-complement bus of `width` wires. -/
def driveSigned (width : Nat) (v : Int) : Nat := (v % ((2 ^ width : Nat) : Int)).toNat

/-- `v` is representable in two's complement on `width` wires. -/
def inSigned (width : Nat) (v : Int) : Bool :=
  decide (-((2 ^ width : Nat) : Int) ≤ 2 * v) && decide (2 * v < ((2 ^ width : Nat) : Int))

/-- The numerator of `q` over the constant denominator `den` (10_state.md rule R39), exact when `q.den ∣ den`. -/
def numerOver (den : Nat) (q : Rat) : Int := ((den : Int) * q.num) / q.den

end Sys2Proof.Machine
end

