-- ==== Sys2Proof/Machine/Layout.lean ====
section
/-! DEFINITION. The constants every instance carries (10_state.md rule R37): the sixteen fields of the block
(30_encoding.md rules R80 and R81), the alphabet (rules R90 to R92), the hex digits (rule R95). -/

namespace Sys2Proof.Machine

/-- How a field's raw value is read, the last column of 30_encoding.md rule R80. -/
inductive FieldSort where
  | unsigned
  | signed
  | rot
  deriving DecidableEq, Repr

/-- A field of the block: its width and its sort. -/
structure Field where
  width : Nat
  sort : FieldSort
  deriving DecidableEq, Repr

/-- The sixteen fields, 0 to 15, of 30_encoding.md rule R80. -/
def fields : List Field :=
  [⟨6, .unsigned⟩, ⟨2, .unsigned⟩, ⟨30, .unsigned⟩, ⟨4, .unsigned⟩] ++
  [⟨8, .rot⟩, ⟨10, .unsigned⟩, ⟨1, .unsigned⟩, ⟨28, .signed⟩] ++
  [⟨27, .signed⟩, ⟨12, .unsigned⟩, ⟨9, .unsigned⟩, ⟨6, .unsigned⟩] ++
  [⟨2, .unsigned⟩, ⟨3, .unsigned⟩, ⟨1, .unsigned⟩, ⟨19, .unsigned⟩]

/-- The cumulative offsets `o_0` to `o_16` of 30_encoding.md rule R81. -/
def offsets : List Nat := [0, 6, 8, 38, 42, 50, 60, 61, 89, 116, 128, 137, 143, 145, 148, 149, 168]

/-- `o_k` (30_encoding.md rule R81). -/
def offset (k : Nat) : Nat := offsets.getD k 168

/-- `BLK⟨o_k..o_{k+1}⟩`, field `k` of a block (30_encoding.md rule R81). -/
def fieldBits (k : Nat) (blk : Bits) : Bits := slice blk (offset k) (offset (k + 1))

/-- The alphabet of 30_encoding.md rule R90, index 0 to 63. -/
def alphabet : Bytes :=
  [0x30#8, 0x31#8, 0x32#8, 0x33#8, 0x34#8, 0x35#8, 0x36#8, 0x37#8] ++
  [0x38#8, 0x39#8, 0x3A#8, 0x3B#8, 0x3C#8, 0x3D#8, 0x3E#8, 0x3F#8] ++
  [0x40#8, 0x41#8, 0x42#8, 0x43#8, 0x44#8, 0x45#8, 0x46#8, 0x47#8] ++
  [0x48#8, 0x49#8, 0x4A#8, 0x4B#8, 0x4C#8, 0x4D#8, 0x4E#8, 0x4F#8] ++
  [0x50#8, 0x51#8, 0x52#8, 0x53#8, 0x54#8, 0x55#8, 0x56#8, 0x57#8] ++
  [0x60#8, 0x61#8, 0x62#8, 0x63#8, 0x64#8, 0x65#8, 0x66#8, 0x67#8] ++
  [0x68#8, 0x69#8, 0x6A#8, 0x6B#8, 0x6C#8, 0x6D#8, 0x6E#8, 0x6F#8] ++
  [0x70#8, 0x71#8, 0x72#8, 0x73#8, 0x74#8, 0x75#8, 0x76#8, 0x77#8]

/-- `sym`, the symbol of a six-bit value (41_sixbit_armor.md rule R160): a lookup in the alphabet. The value is
below 64 wherever it is applied. -/
def sym (k : Nat) : Byte := alphabet.getD k 0x30#8

/-- `unsym`, the partial inverse of 30_encoding.md rule R92: `none` for the 192 bytes that are not symbols. -/
def unsym (c : Byte) : Option Nat :=
  if 0x30 ≤ c.toNat ∧ c.toNat ≤ 0x57 then some (c.toNat - 48)
  else if 0x60 ≤ c.toNat ∧ c.toNat ≤ 0x77 then some (c.toNat - 56)
  else none

/-- `hexdigit` of 30_encoding.md rule R95: `0` to `9`, then uppercase `A` to `F`. -/
def hexDigit (d : BitVec 4) : Byte :=
  if d.toNat < 10 then BitVec.ofNat 8 (0x30 + d.toNat) else BitVec.ofNat 8 (0x41 + (d.toNat - 10))

end Sys2Proof.Machine
end

