-- ==== Sys2Proof/Config.lean ====
section
/-! DEFINITION. What an instance fixes (the parameters of 00_scope.md rule R10) and the one free value. -/

namespace Sys2Proof

/-- `OVERFLOW_POLICY` of 00_scope.md rule R10: 43_navblock_encode.md rules R205 and R206. -/
inductive OverflowPolicy where
  | fail
  | wrap
  deriving DecidableEq, Repr

/-- The implementation parameters of 00_scope.md rule R10, each with the default of its table.
"A parameter is fixed for the life of an instance (it is configuration, not state)." -/
structure Params where
  /-- `VALUE_W`: width of every signed integer operand port. -/
  valueW : Nat := 32
  /-- `WMAX`: largest field width PACK and UNPACK accept. -/
  wmax : Nat := 32
  /-- `ROT_IN_W`: width of the rate-of-turn operand port. -/
  rotInW : Nat := 16
  /-- `DEG_DEN`: denominator of the longitude and latitude operands. -/
  degDen : Nat := 10000000
  /-- `SOG_DEN`: denominator of the speed operand. -/
  sogDen : Nat := 10
  /-- `COG_DEN`: denominator of the course operand. -/
  cogDen : Nat := 10
  /-- `BITS_MAX`: largest bit-sequence length ARMOR.ENC accepts. -/
  bitsMax : Nat := 168
  /-- `BODY_MAX`: largest byte count CSUM accepts. -/
  bodyMax : Nat := 255
  /-- `OVERFLOW_POLICY`. -/
  overflowPolicy : OverflowPolicy := .fail
  deriving DecidableEq, Repr

/-- The parameters an instance has when none is given (rule R10, column "default"). -/
def Params.default : Params := {}

/-- The largest symbol count ARMOR.DEC accepts, `ceil(BITS_MAX/6)` (41_sixbit_armor.md rule R161). -/
def Params.charsMax (p : Params) : Nat := (p.bitsMax + 5) / 6

/-- FREE VALUE (93_implementation_defined.md U3; log entry 8): which of the two neighbouring integers
`round` gives at a tie of the Rate of Turn, as a function of the magnitude; true is the upper one. It has
no body here, so nothing can be proved of it. The smallest tie is at magnitude 250000
(43_navblock_encode.md rule R209), which no port of 18 bits or fewer carries. -/
opaque Config.rotTieUp : Nat → Bool

end Sys2Proof
end

