-- ==== Sys2Proof/Syntax.lean ====
section
/-! DEFINITION. The nine operations, the request ports, and the abstract requests of 10_state.md rules R38 and R39. -/

namespace Sys2Proof

/-- The nine operations of 30_encoding.md rule R103, one constructor per row of opcode_table.json. The command
byte has no operand fields (rule R102): every operand is a request port. -/
inductive Instr where
  /-- 0x01, 40_bitfield_codec.md rule R131. -/
  | pack
  /-- 0x02, 40_bitfield_codec.md rule R136. -/
  | unpackU
  /-- 0x03, 40_bitfield_codec.md rule R138. -/
  | unpackS
  /-- 0x04, 40_bitfield_codec.md rule R140. -/
  | unpackRot
  /-- 0x05, 41_sixbit_armor.md rule R162. -/
  | armorEnc
  /-- 0x06, 41_sixbit_armor.md rule R167. -/
  | armorDec
  /-- 0x07, 42_checksum.md rule R181. -/
  | csum
  /-- 0x08, 43_navblock_encode.md rule R201. -/
  | navEnc
  /-- 0x09, 44_navblock_decode.md rule R241. -/
  | navDec
  deriving DecidableEq, Repr

/-- The input record of NAV.ENC over the abstract types of 10_state.md rule R39: integers and exact
rationals in degrees and knots. -/
structure NavInput where
  mmsi : Int
  navStatus : Int
  rateOfTurn : Int
  speedOverGround : Rat
  positionAccurate : Bool
  longitude : Rat
  latitude : Rat
  courseOverGround : Rat
  trueHeading : Int
  timestampSeconds : Int
  maneuverIndicator : Int
  spare : Int
  raim : Bool
  radioStatus : Int
  deriving DecidableEq, Repr

/-- The output record of NAV.DEC over the abstract types of 10_state.md rule R41. -/
structure NavRecord where
  msgType : Nat
  repeatInd : Nat
  mmsi : Nat
  navStatus : Nat
  rot : Int
  sog : Rat
  posAcc : Bool
  lon : Rat
  lat : Rat
  cog : Rat
  hdg : Nat
  ts : Nat
  maneuver : Nat
  spare : Nat
  raim : Bool
  radio : Nat
  deriving DecidableEq, Repr

/-- A request over the abstract types of 10_state.md rule R38: every operand of an operation is a mandatory
field (rule R44). `reserved` is a request whose command byte is no operation. -/
inductive Request where
  | pack (value : Int) (width : Nat)
  | unpackU (bits : Bits)
  | unpackS (bits : Bits)
  | unpackRot (bits : Bits)
  | armorEnc (abits : Bits)
  | armorDec (chars : Bytes)
  | csum (body : Bytes)
  | navEnc (input : NavInput)
  | navDec (blk : Bits)
  | reserved (cmd : Byte)
  deriving DecidableEq, Repr

/-- The operand ports of NAV.ENC (10_state.md rule R39, column "port format"). A natural is the pattern driven on
a bus whose width is a parameter: its two's-complement reading is Machine/Operands.lean's. -/
structure NavPorts where
  mmsi : Nat
  navStatus : Nat
  rateOfTurn : Nat
  speedOverGround : Nat
  positionAccurate : Bool
  longitude : Nat
  latitude : Nat
  courseOverGround : Nat
  trueHeading : Nat
  timestampSeconds : Nat
  maneuverIndicator : Nat
  spare : Nat
  raim : Bool
  radioStatus : Nat
  deriving DecidableEq, Repr

/-- The request ports of an instance: the command byte (30_encoding.md rule R102) and every operand port of
10_state.md rule R38. A natural is the pattern driven on a bus whose width is a parameter; wires above that width
do not exist and are not read (log entry 9). -/
structure RequestPorts where
  cmd : Byte
  value : Nat
  width : BitVec 6
  bits : Nat
  abits : Nat
  nbits : BitVec 8
  chars : Nat
  nchars : BitVec 8
  body : Nat
  nbody : BitVec 8
  nav : NavPorts
  blk : Block
  deriving DecidableEq, Repr

end Sys2Proof
end

