-- ==== Sys2Proof/Decode.lean ====
section
/-! DEFINITION. The decoder of command bytes, total and rejecting by name, and after it the encoder
(30_encoding.md rules R102 to R105). -/

namespace Sys2Proof

/-- Why bytes are no operation (30_encoding.md rule R104). -/
inductive Reject where
  /-- There is no command byte. -/
  | truncated
  /-- `cmd[7:4]` is zero and the operation code is 0x0 or 0xA to 0xF. -/
  | reservedOp (cmd : Byte)
  /-- `cmd[7:4]` is not zero. -/
  | reservedUpper (cmd : Byte)
  deriving DecidableEq, Repr

/-- A row of opcode_table.json: `match` and `mask` over the 8-bit `cmd` (30_encoding.md rule R105). -/
structure OpcodeRow where
  pattern : Byte
  mask : Byte
  instr : Instr
  deriving DecidableEq, Repr

/-- The operation codes of 30_encoding.md rule R103. -/
def opcodeRows : List OpcodeRow :=
  [⟨0x01#8, 0xFF#8, .pack⟩, ⟨0x02#8, 0xFF#8, .unpackU⟩, ⟨0x03#8, 0xFF#8, .unpackS⟩] ++
  [⟨0x04#8, 0xFF#8, .unpackRot⟩, ⟨0x05#8, 0xFF#8, .armorEnc⟩, ⟨0x06#8, 0xFF#8, .armorDec⟩] ++
  [⟨0x07#8, 0xFF#8, .csum⟩, ⟨0x08#8, 0xFF#8, .navEnc⟩, ⟨0x09#8, 0xFF#8, .navDec⟩]

/-- A row matches a command byte. -/
def OpcodeRow.accepts (r : OpcodeRow) (cmd : Byte) : Bool := cmd &&& r.mask == r.pattern

/-- The operation a command byte selects, or the name of its reservation (rules R103 and R104). -/
def decodeCmd (cmd : Byte) : Except Reject Instr :=
  match opcodeRows.find? (fun r => r.accepts cmd) with
  | some r => .ok r.instr
  | none => if cmd.extractLsb 7 4 = 0#4 then .error (.reservedOp cmd) else .error (.reservedUpper cmd)

/-- The decoder on bytes: one command byte, all requests having the one format REQ (rule R102), and the rest. -/
def decode : Bytes → Except Reject (Instr × Bytes)
  | [] => .error .truncated
  | cmd :: rest =>
    match decodeCmd cmd with
    | .ok i => .ok (i, rest)
    | .error e => .error e

/-- The command byte of an operation, from the table of rule R103. -/
def Instr.cmd : Instr → Byte
  | .pack => 0x01#8
  | .unpackU => 0x02#8
  | .unpackS => 0x03#8
  | .unpackRot => 0x04#8
  | .armorEnc => 0x05#8
  | .armorDec => 0x06#8
  | .csum => 0x07#8
  | .navEnc => 0x08#8
  | .navDec => 0x09#8

/-- The encoder: the bytes of an instruction. -/
def encode (i : Instr) : Bytes := [i.cmd]

/-- The bytes of a word of the opcode table: bit 0 is the least significant bit of the first byte. -/
def wordBytes (w : Nat) : Nat → Bytes
  | 0 => []
  | n + 1 => BitVec.ofNat 8 w :: wordBytes (w / 256) n

/-- The instruction the decoder reads from an instruction of `nbits` bits whose bits are `w`. -/
def decodeTableWord (nbits w : Nat) : Option Instr :=
  match decode (wordBytes w (nbits / 8)) with
  | .ok (i, []) => some i
  | _ => none

end Sys2Proof
end

