-- ==== Sys2Proof/Machine/State.lean ====
section
/-! DEFINITION. The outcomes of an operation, the response ports, and the state of one instance. -/

namespace Sys2Proof.Machine

/-- The fault kinds of 60_exceptions.md rule R321. They are outcomes of a request, delivered as its response
(rule R330); none stops the machine. -/
inductive FaultKind where
  /-- Raised by the host's SENT.DEC (45_sentence_validator.md rule R287). -/
  | checksumMismatch
  /-- Raised by the host's SENT.DEC (45_sentence_validator.md rule R288). -/
  | malformedSentence
  /-- Raised by the host's VALIDATE (45_sentence_validator.md rule R300). -/
  | fieldValidationFailure
  /-- Raised by NAV.ENC under policy `fail` (43_navblock_encode.md rule R205). -/
  | encodingOverflow
  /-- Raised by a request with a reserved command byte (60_exceptions.md rule R327). -/
  | illegalOperation
  /-- Raised by PACK and the UNPACK operations (40_bitfield_codec.md rule R130). -/
  | widthOutOfRange
  /-- Raised by ARMOR.ENC, ARMOR.DEC and CSUM (41_sixbit_armor.md rule R161, 42_checksum.md rule R181). -/
  | lengthOutOfRange
  /-- Raised by ARMOR.DEC (41_sixbit_armor.md rule R168). -/
  | armorSymbolInvalid
  /-- Raised by NAV.DEC over abstract sequences and by the host's DECODE.MSG (44_navblock_decode.md rule R241,
  45_sentence_validator.md rule R311). -/
  | blockLengthMismatch
  deriving DecidableEq, Repr

/-- The outcome of an operation (00_scope.md rule R19): exactly one of `ok(result)` or `fault(kind, info)`. -/
inductive OpOutcome (α : Type) where
  | ok (result : α)
  | fault (kind : FaultKind) (info : Byte)
  deriving DecidableEq, Repr

/-- The result of PACK (40_bitfield_codec.md rule R131). -/
structure Packed where
  bits : Bits
  ovfU : Bool
  ovfS : Bool
  deriving DecidableEq, Repr

/-- The result of CSUM (42_checksum.md rule R181). -/
structure Checksum where
  cs : Byte
  csHex : Bytes
  deriving DecidableEq, Repr

/-- The result of NAV.ENC (43_navblock_encode.md rule R201): `ovfMask⟨k⟩` says that field `k` does not fit. -/
structure Encoded where
  blk : Bits
  ovfMask : Bits
  deriving DecidableEq, Repr

/-- The result of an operation over the abstract types of 10_state.md rule R40. -/
inductive Result where
  | packed (r : Packed)
  | value (v : Int)
  | chars (c : Bytes)
  | abits (b : Bits)
  | checksum (r : Checksum)
  | block (r : Encoded)
  | record (r : NavRecord)
  deriving DecidableEq, Repr

/-- The result ports of NAV.DEC (10_state.md rule R41, column "port format"): `rot` signed, `sog` and `cog`
numerators over 10, `lon` and `lat` signed numerators over 600000. -/
structure NavOut where
  msgType : BitVec 6
  repeatInd : BitVec 2
  mmsi : BitVec 30
  navStatus : BitVec 4
  rot : BitVec 9
  sog : BitVec 14
  posAcc : Bool
  lon : BitVec 28
  lat : BitVec 27
  cog : BitVec 16
  hdg : BitVec 9
  ts : BitVec 6
  maneuver : BitVec 2
  spare : BitVec 3
  raim : Bool
  radio : BitVec 19
  deriving DecidableEq, Repr

/-- The result ports of 10_state.md rule R40, per operation. A port whose width is a parameter carries a number;
that the number is in the port's format is an invariant (`Response.wf`). -/
inductive ResultPorts where
  /-- PACK: the bits right-aligned on the bus, and the two overflow wires. -/
  | packed (bus : Nat) (ovfU ovfS : Bool)
  /-- UNPACK.U, UNPACK.S, UNPACK.ROT: a signed port of `WMAX`+1 bits. -/
  | value (v : Int)
  /-- ARMOR.ENC: the count and the byte lanes. -/
  | armored (nchars : BitVec 8) (laneBus : Nat)
  /-- ARMOR.DEC: the bits right-aligned on the bus, and their number. -/
  | dearmored (bus nbits : Nat)
  /-- CSUM: the byte and the two digit lanes, lane 0 the high digit. -/
  | checksum (cs hex0 hex1 : Byte)
  /-- NAV.ENC: the block, and the mask whose bus bit 15−k is field k. -/
  | block (blk : Block) (ovfMask : BitVec 16)
  /-- NAV.DEC: the sixteen components. -/
  | record (r : NavOut)
  deriving DecidableEq, Repr

/-- A response (10_state.md rule R40, 60_exceptions.md rule R330): `status`, `info`, and the result when the
status is OK; a faulted response carries no result. -/
structure Response where
  status : Byte
  info : Byte
  result : Option ResultPorts
  deriving DecidableEq, Repr

/-- What would stop the machine. The spec has no such thing: every request has an outcome (00_scope.md rule R19) and
every fault is a response (60_exceptions.md rule R330), so nothing raises a stop and the type is empty, which is
exact, hence safe (log entry 6). -/
inductive Fault : Type
  deriving DecidableEq, Repr

/-- Why the model would give an instruction no meaning. -/
inductive Refusal where
  /-- An operation of the table without a meaning in this model, raised by exec's arm for it. No arm raises it:
  every operation has its meaning. Safe: the run stops. -/
  | notModelled (mnemonic : String)
  deriving DecidableEq, Repr

/-- One instance of the block with its host's requests. The block keeps nothing between requests (10_state.md
rule R30); what stands here is its configuration, its ports and the host's program. -/
structure State where
  /-- The parameters of the instance (00_scope.md rule R10): configuration, written by no step. -/
  params : Params
  /-- The requests the host has yet to issue, next first: host state (10_state.md rule R32), held here so that a
  run has a program. -/
  pending : List RequestPorts
  /-- The request ports, holding the request being answered (10_state.md rule R38) or, by the model's choice,
the one last answered (log entry 5). -/
  request : RequestPorts
  /-- The response ports: absent before the first response (10_state.md rule R43). -/
  response : Option Response
  deriving DecidableEq, Repr

/-- The operand ports of NAV.ENC with every wire at zero. -/
def NavPorts.zero : NavPorts := ⟨0, 0, 0, 0, false, 0, 0, 0, 0, 0, 0, 0, false, 0⟩

/-- The request ports with every wire at zero: the all-zero request, which "is never taken for work"
(30_encoding.md rule R104). -/
def RequestPorts.zero : RequestPorts := ⟨0#8, 0, 0#6, 0, 0, 0#8, 0, 0#8, 0, 0#8, NavPorts.zero, 0#168⟩

/-- An instance made with the parameters `p`, right after reset: no request issued, no response (10_state.md rules R42
and R43). The request ports' zero is the model's choice (log entry 4). -/
def State.resetOf (p : Params) : State :=
  { params := p, pending := [], request := RequestPorts.zero, response := none }

/-- The default instance right after reset (00_scope.md rule R10; that it is the default one is log entry 2). -/
def State.reset : State := State.resetOf Params.default

end Sys2Proof.Machine
end

