-- ==== Sys2Proof/Machine/Operands.lean ====
section
/-! DEFINITION. Every operand form and result form of 10_state.md rules R38 to R41: what the block reads from the
request ports, how the host drives them, and how a result is driven on the result ports. -/

namespace Sys2Proof.Machine

/-! ## Reading the request ports (rules R38 and R39) -/

/-- PACK's `value`: two's complement on `VALUE_W` wires. -/
def valueIn (p : Params) (r : RequestPorts) : Int := signedBus p.valueW r.value

/-- The `bits` of UNPACK.U and UNPACK.S: the sequence right-aligned on the bus of `WMAX` wires, "upper `WMAX`−n bus
bits ignored"; its length is the `width` port. -/
def bitsIn (p : Params) (r : RequestPorts) : Bits := bitsOf (r.bits % 2 ^ p.wmax) r.width.toNat

/-- ARMOR.ENC's `abits`: right-aligned on the bus of `BITS_MAX` wires; its length is the `nbits` port.
DESIGN CHOICE (log entry 9): the wires from `nbits` up to `BITS_MAX` are ignored; rule R38 says so of the UNPACK bus only. -/
def abitsIn (p : Params) (r : RequestPorts) : Bits := bitsOf (r.abits % 2 ^ p.bitsMax) r.nbits.toNat

/-- ARMOR.DEC's `chars`: byte j on lane j; its length is the `nchars` port. A count above the `ceil(BITS_MAX/6)` lanes
that exist faults before any lane is read (60_exceptions.md rule R328), so lanes that do not exist are never seen. -/
def charsIn (r : RequestPorts) : Bytes := lanes r.chars r.nchars.toNat

/-- CSUM's `body`: byte j on lane j; its length is the `nbody` port. A count above the `BODY_MAX` lanes that exist
faults before any lane is read (60_exceptions.md rule R328). -/
def bodyIn (r : RequestPorts) : Bytes := lanes r.body r.nbody.toNat

/-- NAV.ENC's fourteen operands (rule R39): integers in two's complement, rationals as numerators over their
constant denominators. -/
def navIn (p : Params) (r : RequestPorts) : NavInput :=
  { mmsi := signedBus p.valueW r.nav.mmsi
    navStatus := signedBus p.valueW r.nav.navStatus
    rateOfTurn := signedBus p.rotInW r.nav.rateOfTurn
    speedOverGround := mkRat (signedBus p.valueW r.nav.speedOverGround) p.sogDen
    positionAccurate := r.nav.positionAccurate
    longitude := mkRat (signedBus p.valueW r.nav.longitude) p.degDen
    latitude := mkRat (signedBus p.valueW r.nav.latitude) p.degDen
    courseOverGround := mkRat (signedBus p.valueW r.nav.courseOverGround) p.cogDen
    trueHeading := signedBus p.valueW r.nav.trueHeading
    timestampSeconds := signedBus p.valueW r.nav.timestampSeconds
    maneuverIndicator := signedBus p.valueW r.nav.maneuverIndicator
    spare := signedBus p.valueW r.nav.spare
    raim := r.nav.raim
    radioStatus := signedBus p.valueW r.nav.radioStatus }

/-- NAV.DEC's `blk`: `blk⟨i⟩` is bus bit 167−i. -/
def blkIn (r : RequestPorts) : Bits := bitsOf r.blk.toNat 168

/-- The abstract request an operation reads from the ports. -/
def readRequest (p : Params) (r : RequestPorts) : Instr → Request
  | .pack => .pack (valueIn p r) r.width.toNat
  | .unpackU => .unpackU (bitsIn p r)
  | .unpackS => .unpackS (bitsIn p r)
  | .unpackRot => .unpackRot (bitsIn p r)
  | .armorEnc => .armorEnc (abitsIn p r)
  | .armorDec => .armorDec (charsIn r)
  | .csum => .csum (bodyIn r)
  | .navEnc => .navEnc (navIn p r)
  | .navDec => .navDec (blkIn r)

/-! ## Driving the request ports (the host's side of rules R38 and R39) -/

/-- NAV.ENC's operands on their ports. -/
def driveNav (p : Params) (x : NavInput) : NavPorts :=
  { mmsi := driveSigned p.valueW x.mmsi
    navStatus := driveSigned p.valueW x.navStatus
    rateOfTurn := driveSigned p.rotInW x.rateOfTurn
    speedOverGround := driveSigned p.valueW (numerOver p.sogDen x.speedOverGround)
    positionAccurate := x.positionAccurate
    longitude := driveSigned p.valueW (numerOver p.degDen x.longitude)
    latitude := driveSigned p.valueW (numerOver p.degDen x.latitude)
    courseOverGround := driveSigned p.valueW (numerOver p.cogDen x.courseOverGround)
    trueHeading := driveSigned p.valueW x.trueHeading
    timestampSeconds := driveSigned p.valueW x.timestampSeconds
    maneuverIndicator := driveSigned p.valueW x.maneuverIndicator
    spare := driveSigned p.valueW x.spare
    raim := x.raim
    radioStatus := driveSigned p.valueW x.radioStatus }

/-- The ports as the host drives them for a request: the command byte of 30_encoding.md rule R103 and the operands.
DESIGN CHOICE (log entry 4): the ports the operation does not read, of which the spec says nothing, stand at zero. -/
def driveRequest (p : Params) : Request → RequestPorts
  | .pack v w => { RequestPorts.zero with cmd := 0x01#8, value := driveSigned p.valueW v, width := BitVec.ofNat 6 w }
  | .unpackU b => { RequestPorts.zero with cmd := 0x02#8, bits := valU b, width := BitVec.ofNat 6 b.length }
  | .unpackS b => { RequestPorts.zero with cmd := 0x03#8, bits := valU b, width := BitVec.ofNat 6 b.length }
  | .unpackRot b => { RequestPorts.zero with cmd := 0x04#8, bits := valU b, width := BitVec.ofNat 6 b.length }
  | .armorEnc b => { RequestPorts.zero with cmd := 0x05#8, abits := valU b, nbits := BitVec.ofNat 8 b.length }
  | .armorDec c => { RequestPorts.zero with cmd := 0x06#8, chars := laneBus c, nchars := BitVec.ofNat 8 c.length }
  | .csum c => { RequestPorts.zero with cmd := 0x07#8, body := laneBus c, nbody := BitVec.ofNat 8 c.length }
  | .navEnc x => { RequestPorts.zero with cmd := 0x08#8, nav := driveNav p x }
  | .navDec b => { RequestPorts.zero with cmd := 0x09#8, blk := BitVec.ofNat 168 (valU b) }
  | .reserved c => { RequestPorts.zero with cmd := c }

/-! ## Driving the result ports (rules R40 and R41) -/

/-- NAV.DEC's record on its ports: rationals as numerators over 10 and 600000. -/
def driveRecord (r : NavRecord) : NavOut :=
  { msgType := BitVec.ofNat 6 r.msgType
    repeatInd := BitVec.ofNat 2 r.repeatInd
    mmsi := BitVec.ofNat 30 r.mmsi
    navStatus := BitVec.ofNat 4 r.navStatus
    rot := BitVec.ofInt 9 r.rot
    sog := BitVec.ofInt 14 (truncMul 10 r.sog)
    posAcc := r.posAcc
    lon := BitVec.ofInt 28 (truncMul 600000 r.lon)
    lat := BitVec.ofInt 27 (truncMul 600000 r.lat)
    cog := BitVec.ofInt 16 (truncMul 10 r.cog)
    hdg := BitVec.ofNat 9 r.hdg
    ts := BitVec.ofNat 6 r.ts
    maneuver := BitVec.ofNat 2 r.maneuver
    spare := BitVec.ofNat 3 r.spare
    raim := r.raim
    radio := BitVec.ofNat 19 r.radio }

/-- The record the ports of rule R41 carry: the host's reading of them. -/
def readRecord (o : NavOut) : NavRecord :=
  { msgType := o.msgType.toNat
    repeatInd := o.repeatInd.toNat
    mmsi := o.mmsi.toNat
    navStatus := o.navStatus.toNat
    rot := o.rot.toInt
    sog := mkRat o.sog.toNat 10
    posAcc := o.posAcc
    lon := mkRat o.lon.toInt 600000
    lat := mkRat o.lat.toInt 600000
    cog := mkRat o.cog.toNat 10
    hdg := o.hdg.toNat
    ts := o.ts.toNat
    maneuver := o.maneuver.toNat
    spare := o.spare.toNat
    raim := o.raim
    radio := o.radio.toNat }

/-- A result on its ports (rule R40): sequences right-aligned (00_scope.md rule R15), byte j on lane j, `cs_hex` lane 0
the high digit. The wires above PACK's bits are zero by rule R40. DESIGN CHOICE (log entry 10): the byte lanes of
ARMOR.ENC at and above `nchars`, and the wires of ARMOR.DEC at and above `nbits`, of which the spec says nothing, are zero
too. -/
def driveResult : Result → ResultPorts
  | .packed r => .packed (valU r.bits) r.ovfU r.ovfS
  | .value v => .value v
  | .chars c => .armored (BitVec.ofNat 8 c.length) (laneBus c)
  | .abits b => .dearmored (valU b) b.length
  | .checksum r => .checksum r.cs (r.csHex.getD 0 0#8) (r.csHex.getD 1 0#8)
  | .block r => .block (BitVec.ofNat 168 (valU r.blk)) (BitVec.ofNat 16 (valU r.ovfMask))
  | .record r => .record (driveRecord r)

end Sys2Proof.Machine
end

