-- ==== Sys2Proof/Machine/Ops.lean ====
section
/-! DEFINITION. The shared operations: composing outcomes, delivering a response, raising a fault, accepting a
request. -/

namespace Sys2Proof.Machine

/-- The outcome with its result transformed; a fault passes unchanged. -/
def OpOutcome.map {α β : Type} (f : α → β) : OpOutcome α → OpOutcome β
  | .ok r => .ok (f r)
  | .fault k info => .fault k info

/-- The next step of a procedure: a fault ends it "with that same fault, unchanged" (45_sentence_validator.md rule
R280). -/
def OpOutcome.andThen {α β : Type} (o : OpOutcome α) (f : α → OpOutcome β) : OpOutcome β :=
  match o with
  | .ok r => f r
  | .fault k info => .fault k info

/-- `require c else raise K(info)` of 00_scope.md rule R18, before the rest of an operation. -/
def require {α : Type} (c : Bool) (k : FaultKind) (info : Byte) (rest : OpOutcome α) : OpOutcome α :=
  if c then rest else .fault k info

/-- The status codes of 60_exceptions.md rule R321. -/
def FaultKind.status : FaultKind → Byte
  | .checksumMismatch => 0x01#8
  | .malformedSentence => 0x02#8
  | .fieldValidationFailure => 0x03#8
  | .encodingOverflow => 0x04#8
  | .illegalOperation => 0x10#8
  | .widthOutOfRange => 0x11#8
  | .lengthOutOfRange => 0x12#8
  | .armorSymbolInvalid => 0x13#8
  | .blockLengthMismatch => 0x14#8

/-- The response with status OK: "`status` 0x00, `info` 0 and the whole result" (60_exceptions.md rule R330). -/
def okResponse (r : Result) : Response := { status := 0x00#8, info := 0x00#8, result := some (driveResult r) }

/-- The response of a fault: the kind's code, its info value, no result (60_exceptions.md rule R330). -/
def faultResponse (k : FaultKind) (info : Byte) : Response := { status := k.status, info := info, result := none }

/-- TAKING A FAULT, the block's whole trap mechanism (60_exceptions.md rule R330): the response ports carry the
fault, "Nothing else happens: no state is saved because there is none; no mode, mask or stack changes". There is no
return from it (rule R331). -/
def State.raise (s : State) (k : FaultKind) (info : Byte) : State := { s with response := some (faultResponse k info) }

/-- Delivering a result (60_exceptions.md rule R330). -/
def State.respond (s : State) (r : Result) : State := { s with response := some (okResponse r) }

/-- The end of every operation: its outcome is delivered as the response to the request. -/
def State.deliver (s : State) : OpOutcome Result → Host.Outcome State Fault Refusal
  | .ok r => .next (s.respond r)
  | .fault k info => .next (s.raise k info)

/-- The response that delivers an outcome. -/
def responseOf : OpOutcome Result → Response
  | .ok r => okResponse r
  | .fault k info => faultResponse k info

/-- Accepting a request (60_exceptions.md rule R341): the host drives the ports, the rest of its program waits. DESIGN
CHOICE (log entry 5): the request stays on the ports after it is answered, until the next is accepted. -/
def State.accept (s : State) (r : RequestPorts) (rest : List RequestPorts) : State :=
  { s with request := r, pending := rest }

/-- A reset of an instance between requests (70_reset_and_hazards.md rules R360 and R361): the parameters survive, the
response ports lose their value (10_state.md rule R43). No step takes it: it comes from outside. That the host's program
is untouched, being host state, and that the request ports stand at zero are the model's (log entries 2 and 4). -/
def State.afterReset (s : State) : State := { State.resetOf s.params with pending := s.pending }

/-- A request with a reserved command byte (60_exceptions.md rule R327): the fault IllegalOperation with the command
byte as its info. "No operand is read." -/
def execReserved (s : State) : Host.Outcome State Fault Refusal :=
  .next (s.raise .illegalOperation s.request.cmd)

end Sys2Proof.Machine
end

