-- ==== Sys2Proof/Machine/Armor.lean ====
section
/-! DEFINITION. SixBitArmor: ARMOR.ENC, ARMOR.DEC (41_sixbit_armor.md). -/

namespace Sys2Proof.Machine

/-- The pad count `p` of rule R162: `(6 - (n mod 6)) mod 6`. -/
def padCount (n : Nat) : Nat := (6 - n % 6) % 6

/-- The symbols of a bit sequence (rules R162 and R163): zero bits appended, then `chars⟨j⟩` is the symbol of
`b⟨6j..6j+6⟩`. -/
def armorChars (abits : Bits) : Bytes :=
  let b := abits ++ zeros (padCount abits.length)
  (List.range (b.length / 6)).map (fun j => sym (valU (slice b (6 * j) (6 * j + 6))))

/-- ARMOR.ENC over abstract sequences (rule R162): "there is no limit" (rule R161). -/
def armorEncSeq (abits : Bits) : OpOutcome Bytes := .ok (armorChars abits)

/-- ARMOR.ENC of an instance (rule R162), with the length limit of rule R161. -/
def armorEnc (p : Params) (abits : Bits) : OpOutcome Bytes :=
  require (decide (abits.length ≤ p.bitsMax)) .lengthOutOfRange (BitVec.ofNat 8 abits.length) (armorEncSeq abits)

/-- The loop of ARMOR.DEC (rule R167) from byte index `j`: six bits a symbol, in order; the first byte that is not a
symbol ends it (rule R168). -/
def dearmorFrom (j : Nat) : Bytes → OpOutcome Bits
  | [] => .ok []
  | c :: cs =>
    match unsym c with
    | none => .fault .armorSymbolInvalid (BitVec.ofNat 8 j)
    | some k => (dearmorFrom (j + 1) cs).map (fun bits => bitsOf k 6 ++ bits)

/-- ARMOR.DEC over abstract sequences (rule R167): "there is no limit" (rule R161). -/
def armorDecSeq (chars : Bytes) : OpOutcome Bits := dearmorFrom 0 chars

/-- ARMOR.DEC of an instance (rule R167), with the length limit of rule R161. -/
def armorDec (p : Params) (chars : Bytes) : OpOutcome Bits :=
  require (decide (chars.length ≤ p.charsMax)) .lengthOutOfRange (BitVec.ofNat 8 chars.length) (armorDecSeq chars)

/-- Meaning of ARMOR.ENC. -/
def execArmorEnc (s : State) : Host.Outcome State Fault Refusal :=
  s.deliver ((armorEnc s.params (abitsIn s.params s.request)).map .chars)

/-- Meaning of ARMOR.DEC. -/
def execArmorDec (s : State) : Host.Outcome State Fault Refusal :=
  s.deliver ((armorDec s.params (charsIn s.request)).map .abits)

end Sys2Proof.Machine
end

