-- ==== Sys2Proof/Machine/Csum.lean ====
section
/-! DEFINITION. ChecksumCalculator: CSUM (42_checksum.md). -/

namespace Sys2Proof.Machine

/-- The XOR of all bytes, a fold from 0 (rules R181 and R182). -/
def xorAll (body : Bytes) : Byte := body.foldl (· ^^^ ·) 0x00#8

/-- `cs_hex` (rule R181): the digit of `cs[7:4]`, then the digit of `cs[3:0]` (20_memory.md rule R57). -/
def csumHex (cs : Byte) : Bytes := [hexDigit (cs.extractLsb 7 4), hexDigit (cs.extractLsb 3 0)]

/-- CSUM (rule R181). -/
def csum (p : Params) (body : Bytes) : OpOutcome Checksum :=
  require (decide (body.length ≤ p.bodyMax)) .lengthOutOfRange (BitVec.ofNat 8 body.length)
    (.ok { cs := xorAll body, csHex := csumHex (xorAll body) })

/-- Meaning of CSUM. -/
def execCsum (s : State) : Host.Outcome State Fault Refusal :=
  s.deliver ((csum s.params (bodyIn s.request)).map .checksum)

end Sys2Proof.Machine
end

