-- ==== Sys2Proof/Machine/Flags.lean ====
section
/-! DEFINITION. The per-response flags of 10_state.md rule R33: `ovf_u` and `ovf_s` of PACK, `ovf_mask` of NAV.ENC. -/

namespace Sys2Proof.Machine

/-- `ovf_u` of 40_bitfield_codec.md rule R131: not `0 <= value < 2^width`. -/
def ovfU (value : Int) (width : Nat) : Bool :=
  !(decide (0 ≤ value) && decide (value < ((2 ^ width : Nat) : Int)))

/-- `ovf_s` of 40_bitfield_codec.md rule R131: not `-2^(width-1) <= value < 2^(width-1)`. -/
def ovfS (value : Int) (width : Nat) : Bool :=
  !(decide (-((2 ^ (width - 1) : Nat) : Int) ≤ value) && decide (value < ((2 ^ (width - 1) : Nat) : Int)))

/-- `fits(k, f)` of 43_navblock_encode.md rule R203, from PACK's indications: not `ovf_u` for an unsigned field, not
`ovf_s` for a signed one, and for the Rate of Turn not `ovf_s` or the value 128. -/
def Field.fits (fld : Field) (f : Int) : Bool :=
  match fld.sort with
  | .unsigned => !ovfU f fld.width
  | .signed => !ovfS f fld.width
  | .rot => !ovfS f fld.width || decide (f = 128)

/-- `ovf_mask` of 43_navblock_encode.md rule R204: element `k` says that raw value `k` does not fit field `k`. -/
def ovfMask (raw : List Int) : Bits := List.zipWith (fun fld f => !fld.fits f) fields raw

/-- The least set index of a mask (43_navblock_encode.md rule R205). -/
def firstSet (mask : Bits) : Option Nat := mask.findIdx? id

end Sys2Proof.Machine
end

