-- ==== Sys2Proof/Machine/BitField.lean ====
section
/-! DEFINITION. BitFieldCodec: PACK, UNPACK.U, UNPACK.S, UNPACK.ROT (40_bitfield_codec.md). -/

namespace Sys2Proof.Machine

/-- The bits of PACK (rule R131): `bitsof(value mod 2^width, width)`. -/
def packBits (value : Int) (width : Nat) : Bits := bitsOf (value % ((2 ^ width : Nat) : Int)).toNat width

/-- The width check of PACK (rule R130). -/
def widthOk (p : Params) (width : Nat) : Bool := decide (1 ≤ width) && decide (width ≤ p.wmax)

/-- PACK (rule R131). -/
def pack (p : Params) (value : Int) (width : Nat) : OpOutcome Packed :=
  require (widthOk p width) .widthOutOfRange (BitVec.ofNat 8 width)
    (.ok { bits := packBits value width, ovfU := ovfU value width, ovfS := ovfS value width })

/-- The limit `WMAX` of rule R130 on a bit operand, in front of an operation over abstract sequences. -/
def widthLimit {α : Type} (p : Params) (bits : Bits) (rest : OpOutcome α) : OpOutcome α :=
  require (decide (bits.length ≤ p.wmax)) .widthOutOfRange (BitVec.ofNat 8 bits.length) rest

/-- UNPACK.U over abstract sequences (rule R136): "`len(bits)` is the width and the check is `len(bits) ≥ 1`" (rule
R130). -/
def unpackUSeq (bits : Bits) : OpOutcome Int :=
  require (decide (1 ≤ bits.length)) .widthOutOfRange (BitVec.ofNat 8 bits.length) (.ok (valU bits))

/-- UNPACK.S over abstract sequences (rule R138): `val_s`, plain two's complement. -/
def unpackSSeq (bits : Bits) : OpOutcome Int :=
  require (decide (1 ≤ bits.length)) .widthOutOfRange (BitVec.ofNat 8 bits.length) (.ok (valS bits))

/-- UNPACK.U of an instance (rule R136). -/
def unpackU (p : Params) (bits : Bits) : OpOutcome Int := widthLimit p bits (unpackUSeq bits)

/-- UNPACK.S of an instance (rule R138). -/
def unpackS (p : Params) (bits : Bits) : OpOutcome Int := widthLimit p bits (unpackSSeq bits)

/-- The value of the Rate-of-Turn field (rule R140): the pattern `10000000` is +128, every other its two's-complement
value. -/
def rotValue (bits : Bits) : Int := if valU bits = 128 then 128 else valS bits

/-- UNPACK.ROT over abstract sequences (rule R140): "the only legal `width` is 8" (rule R130). -/
def unpackRotSeq (bits : Bits) : OpOutcome Int :=
  require (decide (bits.length = 8)) .widthOutOfRange (BitVec.ofNat 8 bits.length) (.ok (rotValue bits))

/-- UNPACK.ROT of an instance (rule R140), with the limit `WMAX` of rule R130, common to the four operations (log entry
15). -/
def unpackRot (p : Params) (bits : Bits) : OpOutcome Int := widthLimit p bits (unpackRotSeq bits)

/-- Meaning of PACK. -/
def execPack (s : State) : Host.Outcome State Fault Refusal :=
  s.deliver ((pack s.params (valueIn s.params s.request) s.request.width.toNat).map .packed)

/-- Meaning of UNPACK.U. -/
def execUnpackU (s : State) : Host.Outcome State Fault Refusal :=
  s.deliver ((unpackU s.params (bitsIn s.params s.request)).map .value)

/-- Meaning of UNPACK.S. -/
def execUnpackS (s : State) : Host.Outcome State Fault Refusal :=
  s.deliver ((unpackS s.params (bitsIn s.params s.request)).map .value)

/-- Meaning of UNPACK.ROT. -/
def execUnpackRot (s : State) : Host.Outcome State Fault Refusal :=
  s.deliver ((unpackRot s.params (bitsIn s.params s.request)).map .value)

end Sys2Proof.Machine
end

