-- ==== Sys2Proof/Machine/NavDecode.lean ====
section
/-! DEFINITION. NavigationBlockCodec, parsing half: NAV.DEC (44_navblock_decode.md). -/

namespace Sys2Proof.Machine

/-- The presentation of a speed (rules R244 and R250): raw 1022 and 1023 are the integers 1022 and 1023, every other
raw value is tenths of a knot. -/
def sogValue (u : Nat) : Rat := if u = 1022 then 1022 else if u = 1023 then 1023 else mkRat u 10

/-- The presentation of a course (rules R244 and R254): raw 3600 is the integer 3600, every other raw value is tenths
of a degree. -/
def cogValue (u : Nat) : Rat := if u = 3600 then 3600 else mkRat u 10

/-- The record of a block (rules R241 and R245 to R260). -/
def recordOf (blk : Bits) : NavRecord :=
  { msgType := valU (fieldBits 0 blk)
    repeatInd := valU (fieldBits 1 blk)
    mmsi := valU (fieldBits 2 blk)
    navStatus := valU (fieldBits 3 blk)
    rot := rotValue (fieldBits 4 blk)
    sog := sogValue (valU (fieldBits 5 blk))
    posAcc := decide (valU (fieldBits 6 blk) = 1)
    lon := mkRat (valS (fieldBits 7 blk)) 600000
    lat := mkRat (valS (fieldBits 8 blk)) 600000
    cog := cogValue (valU (fieldBits 9 blk))
    hdg := valU (fieldBits 10 blk)
    ts := valU (fieldBits 11 blk)
    maneuver := valU (fieldBits 12 blk)
    spare := valU (fieldBits 13 blk)
    raim := decide (valU (fieldBits 14 blk) = 1)
    radio := valU (fieldBits 15 blk) }

/-- NAV.DEC (rule R241). The length test is for abstract sequences: the port always carries 168 bits. -/
def navDec (blk : Bits) : OpOutcome NavRecord :=
  require (decide (blk.length = 168)) .blockLengthMismatch (BitVec.ofNat 8 blk.length) (.ok (recordOf blk))

/-- Meaning of NAV.DEC. The port always carries 168 bits, so the length test of `navDec` has nothing to refuse (rule
R241: "abstract sequences only"; `navDec_blkIn` of Laws/Exec.lean). -/
def execNavDec (s : State) : Host.Outcome State Fault Refusal :=
  s.deliver (.ok (.record (recordOf (blkIn s.request))))

end Sys2Proof.Machine
end

