-- ==== Sys2Proof/Machine/NavEncode.lean ====
section
/-! DEFINITION. NavigationBlockCodec, assembling half: NAV.ENC (43_navblock_encode.md). -/

namespace Sys2Proof.Machine

/-- A magnitude at which `(4733/1000)·sqrt(a)` lies half-way between two integers (rule R209): `250000·j²` for an odd
`j`. -/
def rotTie (a : Nat) : Bool :=
  decide (a % 250000 = 0) && decide (isqrt (a / 250000) * isqrt (a / 250000) = a / 250000) &&
    decide (a / 250000 % 2 = 1)

/-- `rnd` of rules R208 and R209: the integer nearest to `(4733/1000)·sqrt(a)`. At a tie the neighbour is the free
value of Config (93_implementation_defined.md U3). -/
def rnd (a : Nat) : Nat :=
  if rotTie a then isqrt (89605156 * a) / 2000 + (Config.rotTieUp a).toNat
  else (isqrt (89605156 * a) + 1000) / 2000

/-- `rot_scale` of rule R208. -/
def rotScale (x : Int) : Int := if x = 128 ∨ x = -128 then 128 else x.sign * rnd x.natAbs

/-- The sixteen raw values `f0` to `f15` of rule R201 (rules R210 to R225). -/
def rawFields (x : NavInput) : List Int :=
  [1, 0, x.mmsi, x.navStatus] ++
  [rotScale x.rateOfTurn, truncMul 10 x.speedOverGround, x.positionAccurate.toInt, truncMul 600000 x.longitude] ++
  [truncMul 600000 x.latitude, truncMul 10 x.courseOverGround, x.trueHeading, x.timestampSeconds] ++
  [x.maneuverIndicator, x.spare, x.raim.toInt, x.radioStatus]

/-- The concatenation of the sixteen fields in order, each PACKed at its width (rules R201 and R202). -/
def assemble (raw : List Int) : Bits := (List.zipWith (fun fld f => packBits f fld.width) fields raw).flatten

/-- NAV.ENC (rule R201): under policy `fail` the lowest-numbered field that does not fit is reported (rule R205);
under `wrap` every field is its raw value modulo `2^w_k` (rule R206). -/
def navEnc (p : Params) (x : NavInput) : OpOutcome Encoded :=
  match p.overflowPolicy, firstSet (ovfMask (rawFields x)) with
  | .fail, some k => .fault .encodingOverflow (BitVec.ofNat 8 k)
  | _, _ => .ok { blk := assemble (rawFields x), ovfMask := ovfMask (rawFields x) }

/-- Meaning of NAV.ENC. -/
def execNavEnc (s : State) : Host.Outcome State Fault Refusal :=
  s.deliver ((navEnc s.params (navIn s.params s.request)).map .block)

end Sys2Proof.Machine
end

