-- ==== Sys2Proof/Machine/Block.lean ====
section
/-! DEFINITION. The block as the spec's own step function, Request to Outcome (10_state.md rule R30). -/

namespace Sys2Proof.Machine

/-- `step : Request -> Outcome` of 10_state.md rule R30: the outcome of a request depends on its operand values and on
the parameters, and on nothing else. It is the block of an instance: `WMAX` and `BITS_MAX` limit the sequences. -/
def block (p : Params) : Request → OpOutcome Result
  | .pack v w => (pack p v w).map .packed
  | .unpackU b => (unpackU p b).map .value
  | .unpackS b => (unpackS p b).map .value
  | .unpackRot b => (unpackRot p b).map .value
  | .armorEnc b => (armorEnc p b).map .chars
  | .armorDec c => (armorDec p c).map .abits
  | .csum b => (csum p b).map .checksum
  | .navEnc x => (navEnc p x).map .block
  | .navDec b => (navDec b).map .record
  | .reserved cmd => .fault .illegalOperation cmd

/-- The block over abstract sequences: the operand sequences of UNPACK and ARMOR have no length limit
(40_bitfield_codec.md rule R130, 41_sixbit_armor.md rule R161); CSUM keeps `BODY_MAX`, as 42_checksum.md rule R181
allows (log entry 11). -/
def blockSeq (p : Params) : Request → OpOutcome Result
  | .unpackU b => (unpackUSeq b).map .value
  | .unpackS b => (unpackSSeq b).map .value
  | .unpackRot b => (unpackRotSeq b).map .value
  | .armorEnc b => (armorEncSeq b).map .chars
  | .armorDec c => (armorDecSeq c).map .abits
  | .pack v w => block p (.pack v w)
  | .csum b => block p (.csum b)
  | .navEnc x => block p (.navEnc x)
  | .navDec b => block p (.navDec b)
  | .reserved cmd => block p (.reserved cmd)

/-- The request the ports carry: the command byte selects the operation (30_encoding.md rule R102), a reserved one is
the reserved request (rule R104). -/
def requestOn (p : Params) (r : RequestPorts) : Request :=
  match decodeCmd r.cmd with
  | .ok i => readRequest p r i
  | .error _ => .reserved r.cmd

/-- The response to what stands on the request ports. -/
def answer (p : Params) (r : RequestPorts) : Response := responseOf (block p (requestOn p r))

end Sys2Proof.Machine
end

