-- ==== Sys2Proof/Machine/Dispatch.lean ====
section
/-! DEFINITION. One arm per operation of opcode_table.json. -/

namespace Sys2Proof.Machine

def exec (i : Instr) (s : State) : Host.Outcome State Fault Refusal :=
  match i with
  | .pack => Sys2Proof.Machine.execPack s
  | .unpackU => Sys2Proof.Machine.execUnpackU s
  | .unpackS => Sys2Proof.Machine.execUnpackS s
  | .unpackRot => Sys2Proof.Machine.execUnpackRot s
  | .armorEnc => Sys2Proof.Machine.execArmorEnc s
  | .armorDec => Sys2Proof.Machine.execArmorDec s
  | .csum => Sys2Proof.Machine.execCsum s
  | .navEnc => Sys2Proof.Machine.execNavEnc s
  | .navDec => Sys2Proof.Machine.execNavDec s

end Sys2Proof.Machine
end

