-- ==== Sys2Proof/Machine/Step.lean ====
section
/-! DEFINITION. One transaction: the next request of the host's program is accepted and answered. -/

namespace Sys2Proof.Machine

/-- One step of an instance (00_scope.md rule R8, 60_exceptions.md rule R341): it accepts the next request and
produces its response; the command byte comes first (rule R328). With no request pending nothing happens: "a response
is produced only for a request" (rule R332). -/
def step (s : State) : Host.Outcome State Fault Refusal :=
  match s.pending with
  | [] => .next s
  | r :: rest =>
    match decodeCmd r.cmd with
    | .ok i => exec i (s.accept r rest)
    | .error _ => execReserved (s.accept r rest)

/-- `s` with a request whose command byte is the word `w` placed where the next step takes its request: in front of
the host's program, its operands those that stand on the request ports. -/
def State.withFetchWord (s : State) (nbits w : Nat) : State :=
  { s with pending := { s.request with cmd := BitVec.ofNat 8 (w % 2 ^ nbits) } :: s.pending }

end Sys2Proof.Machine
end

