-- ==== Sys2Proof/Machine/Sentence.lean ====
section
/-! DEFINITION. SentenceCodec, outside the block: the host pseudo-operations SENT.ENC and SENT.DEC
(45_sentence_validator.md). -/

namespace Sys2Proof.Machine

/-- The literal `AIVDM,1,1,,A,` (30_encoding.md rule R101). -/
def framePrefix : Bytes :=
  [0x41#8, 0x49#8, 0x56#8, 0x44#8, 0x4D#8, 0x2C#8, 0x31#8] ++ [0x2C#8, 0x31#8, 0x2C#8, 0x2C#8, 0x41#8, 0x2C#8]

/-- The literal `,0` (30_encoding.md rule R101). -/
def frameSuffix : Bytes := [0x2C#8, 0x30#8]

/-- The body around a payload (rule R282). -/
def frameBody (payload : Bytes) : Bytes := framePrefix ++ payload ++ frameSuffix

/-- SENT.ENC (rule R282): ARMOR.ENC, the body, CSUM, the delimiters. -/
def sentEnc (p : Params) (bits : Bits) : OpOutcome Bytes :=
  (armorEnc p bits).andThen fun payload =>
    (csum p (frameBody payload)).map fun r => [0x21#8] ++ frameBody payload ++ [0x2A#8] ++ r.csHex

/-- `split(s, c)` of rule R286: `s` cut at every byte equal to `c`, empty pieces included. -/
def split (c : Byte) : Bytes → List Bytes
  | [] => [[]]
  | b :: bs =>
    if b = c then [] :: split c bs
    else
      match split c bs with
      | [] => [[b]]
      | piece :: pieces => (b :: piece) :: pieces

/-- The last part of SENT.DEC (rules R286 and R288, reason 4): seven comma-separated fields, of which number 5 is the
payload. -/
def payloadOf (body : Bytes) : OpOutcome Bytes :=
  require (decide ((split 0x2C#8 body).length = 7)) .malformedSentence 4#8 (.ok ((split 0x2C#8 body).getD 5 []))

/-- SENT.DEC (rule R286), the tests in the order of its lines. -/
def sentDec (p : Params) (sentence : Bytes) : OpOutcome Bytes :=
  match split 0x2A#8 sentence with
  | [head, tail] =>
    require (decide (head.head? = some 0x21#8)) .malformedSentence 2#8
      (require (decide (tail.length = 2)) .malformedSentence 3#8
        ((csum p head.tail).andThen fun r =>
          require (decide (tail = r.csHex)) .checksumMismatch r.cs (payloadOf head.tail)))
  | _ => .fault .malformedSentence 1#8

end Sys2Proof.Machine
end

