-- ==== Sys2Proof/Machine/Validate.lean ====
section
/-! DEFINITION. Validator, outside the block: the host pseudo-operation VALIDATE (45_sentence_validator.md rule R300). -/

namespace Sys2Proof.Machine

/-- The checks of rule R300 in field order: the field index and whether the component is in its accepted range. -/
def checks (r : NavRecord) : List (Nat × Bool) :=
  [(0, decide (r.msgType = 1 ∨ r.msgType = 2 ∨ r.msgType = 3 ∨ r.msgType = 5 ∨ r.msgType = 18)),
   (1, decide (r.repeatInd = 0)),
   (2, decide (99999 < r.mmsi) && decide (r.mmsi < 1000000000)),
   (3, decide (0 ≤ r.navStatus) && decide (r.navStatus < 16)),
   (4, decide (-128 ≤ r.rot) && decide (r.rot ≤ 128))] ++
  [(5, decide (0 ≤ r.sog) && decide (r.sog ≤ 102) || decide (r.sog = 1022) || decide (r.sog = 1023)),
   (7, decide (-180 ≤ r.lon) && decide (r.lon ≤ 181)),
   (8, decide (-90 ≤ r.lat) && decide (r.lat ≤ 91)),
   (9, decide (-360 ≤ r.cog) && decide (r.cog ≤ 360) || decide (r.cog = 3600))] ++
  [(10, decide (0 ≤ r.hdg) && decide (r.hdg ≤ 359) || decide (r.hdg = 511)),
   (11, decide (1 ≤ r.ts) && decide (r.ts < 63)),
   (12, decide (0 ≤ r.maneuver) && decide (r.maneuver < 3)),
   (14, r.raim == true || r.raim == false)]

/-- VALIDATE (rule R300): the first check that fails ends it with its field index. -/
def validate (r : NavRecord) : OpOutcome Bool :=
  match (checks r).find? (fun c => !c.2) with
  | some c => .fault .fieldValidationFailure (BitVec.ofNat 8 c.1)
  | none => .ok true

end Sys2Proof.Machine
end

