-- ==== Sys2Proof/Machine/Message.lean ====
section
/-! DEFINITION. The whole-message pseudo-operations ENCODE.MSG and DECODE.MSG (45_sentence_validator.md rules R310 and
R311), the host's defaults (70_reset_and_hazards.md rule R369) and its rule "no fix, no request" (rule R370). -/

namespace Sys2Proof.Machine

/-- ENCODE.MSG (rule R310). -/
def encodeMsg (p : Params) (x : NavInput) : OpOutcome Bytes :=
  (navEnc p x).andThen fun e => sentEnc p e.blk

/-- DECODE.MSG (rule R311) without its VALIDATE line. -/
def decodeMsgRaw (p : Params) (sentence : Bytes) : OpOutcome NavRecord :=
  (sentDec p sentence).andThen fun payload =>
    (armorDec p payload).andThen fun abits =>
      require (decide (abits.length = 168)) .blockLengthMismatch (BitVec.ofNat 8 abits.length) (navDec abits)

/-- DECODE.MSG (rule R311). -/
def decodeMsg (p : Params) (sentence : Bytes) : OpOutcome NavRecord :=
  (decodeMsgRaw p sentence).andThen fun r => (validate r).map fun _ => r

/-- What the host drives for data it does not have (70_reset_and_hazards.md rule R369, 10_state.md rule R39). `mmsi`
has no default. -/
def defaultInput (mmsi : Int) : NavInput :=
  { mmsi := mmsi
    navStatus := 8
    rateOfTurn := 128
    speedOverGround := mkRat 1023 10
    positionAccurate := false
    longitude := 181
    latitude := 91
    courseOverGround := 360
    trueHeading := 511
    timestampSeconds := 60
    maneuverIndicator := 0
    spare := 0
    raim := false
    radioStatus := 0 }

/-- What the GPS source supplies when it has a fix (70_reset_and_hazards.md rule R370). -/
structure Fix where
  latitude : Rat
  longitude : Rat
  timestampSeconds : Int
  deriving DecidableEq, Repr

/-- The host's report of a fix (70_reset_and_hazards.md rule R370): with no fix it issues nothing, with a fix it runs
ENCODE.MSG on its record with the fix's position and time. -/
def reportFix (p : Params) (x : NavInput) : Option Fix → Option (OpOutcome Bytes)
  | none => none
  | some g =>
    some (encodeMsg p { x with latitude := g.latitude, longitude := g.longitude, timestampSeconds := g.timestampSeconds })

end Sys2Proof.Machine
end

