-- ==== Sys2Proof/WellFormed.lean ====
section
/-! DEFINITION. Which instructions, parameters and requests are well formed: the port formats of 10_state.md
rules R38 and R39 and the limits on the parameters. -/

namespace Sys2Proof

open Sys2Proof.Machine

/-- Every operation is well formed: the command byte has no operand field that could be wrong (30_encoding.md
rule R102: "no register numbers, no immediates, no modifiers"). -/
def Instr.wf (_ : Instr) : Bool := true

/-- The parameters under which the port formats of 10_state.md make sense (log entry 14): `ROT_IN_W` stays
below 19 bits (92_eei_decisions.md D9), `WMAX` admits a width and fits the 6-bit width port, the counts fit their 8-bit
ports, and no denominator is zero. -/
def Params.wf (p : Params) : Bool :=
  decide (1 ≤ p.valueW) && decide (1 ≤ p.wmax) && decide (p.wmax ≤ 63) && decide (1 ≤ p.rotInW) &&
    decide (p.rotInW ≤ 18) && decide (0 < p.degDen) && decide (0 < p.sogDen) && decide (0 < p.cogDen) &&
    decide (p.bitsMax ≤ 255) && decide (p.bodyMax ≤ 255)

/-- A rational the numerator port over `den` can carry (10_state.md rule R39). -/
def ratOnPort (p : Params) (den : Nat) (q : Rat) : Bool :=
  decide (q.den ∣ den) && inSigned p.valueW (numerOver den q)

/-- The operands of NAV.ENC that the ports of 10_state.md rule R39 can carry. -/
def NavInput.onPorts (p : Params) (x : NavInput) : Bool :=
  inSigned p.valueW x.mmsi && inSigned p.valueW x.navStatus && inSigned p.rotInW x.rateOfTurn &&
    ratOnPort p p.sogDen x.speedOverGround && ratOnPort p p.degDen x.longitude &&
    ratOnPort p p.degDen x.latitude && ratOnPort p p.cogDen x.courseOverGround &&
    inSigned p.valueW x.trueHeading && inSigned p.valueW x.timestampSeconds &&
    inSigned p.valueW x.maneuverIndicator && inSigned p.valueW x.spare && inSigned p.valueW x.radioStatus

/-- The requests the ports of 10_state.md rule R38 can carry ("a parameter only restricts which operand values a
request can carry", 00_scope.md rule R10). A bit sequence longer than its bus is carried only when the part above the
bus is zero, and a byte sequence needs a lane for each byte. -/
def Request.onPorts (p : Params) : Request → Bool
  | .pack value width => inSigned p.valueW value && decide (width < 64)
  | .unpackU bits => decide (bits.length < 64) && decide (valU bits < 2 ^ p.wmax)
  | .unpackS bits => decide (bits.length < 64) && decide (valU bits < 2 ^ p.wmax)
  | .unpackRot bits => decide (bits.length < 64) && decide (valU bits < 2 ^ p.wmax)
  | .armorEnc abits => decide (abits.length < 256) && decide (valU abits < 2 ^ p.bitsMax)
  | .armorDec chars => decide (chars.length < 256) && decide (chars.length ≤ p.charsMax)
  | .csum body => decide (body.length < 256) && decide (body.length ≤ p.bodyMax)
  | .navEnc input => input.onPorts p
  | .navDec blk => decide (blk.length = 168)
  | .reserved cmd => decide (cmd = 0x00#8) || decide (0x0A ≤ cmd.toNat)

end Sys2Proof
end

