-- ==== Sys2Proof/Safety.lean ====
section
/-! DEFINITION. What claims are stated in: the formats a response must have, the invariant of an instance, the
spec's ranges and bus slices written out, and the duties of the requester (70_reset_and_hazards.md). -/

namespace Sys2Proof.Machine

/-! ## Responses and the invariant -/

/-- The ranges of 10_state.md rule R41 that NAV.DEC can return, on its ports. -/
def NavOut.inRange (o : NavOut) : Prop :=
  (-127 ≤ o.rot.toInt ∧ o.rot.toInt ≤ 128) ∧
  (o.sog.toNat ≤ 1021 ∨ o.sog.toNat = 10220 ∨ o.sog.toNat = 10230) ∧
  ((o.cog.toNat ≤ 4095 ∧ o.cog.toNat ≠ 3600) ∨ o.cog.toNat = 36000)

/-- A result is in its port formats (10_state.md rules R40 and R41). -/
def ResultPorts.inFormat (p : Params) : ResultPorts → Prop
  | .packed bus _ _ => bus < 2 ^ p.wmax
  | .value v => -(2 ^ p.wmax : Int) ≤ v ∧ v < (2 ^ p.wmax : Int)
  | .armored nchars bus =>
    nchars.toNat ≤ p.charsMax ∧ bus < 256 ^ nchars.toNat ∧ ∀ c ∈ lanes bus nchars.toNat, unsym c ≠ none
  | .dearmored bus nbits => bus < 2 ^ nbits ∧ nbits % 6 = 0 ∧ nbits ≤ 6 * p.charsMax
  | .checksum cs hex0 hex1 => [hex0, hex1] = csumHex cs
  | .block blk mask =>
    blk.extractLsb' 162 6 = 1#6 ∧ blk.extractLsb' 160 2 = 0#2 ∧
      mask.getLsbD 15 = false ∧ mask.getLsbD 14 = false ∧ mask.getLsbD 9 = false ∧ mask.getLsbD 1 = false ∧
      (p.overflowPolicy = .fail → mask = 0#16)
  | .record o => o.inRange

/-- The fault statuses the block can deliver through its ports, with their info ranges (60_exceptions.md rules R321
to R323). -/
def blockFault (p : Params) (status info : Byte) : Prop :=
  (status = 0x04#8 ∧ p.overflowPolicy = .fail ∧ 2 ≤ info.toNat ∧ info.toNat ≤ 15) ∨
  (status = 0x10#8 ∧ (info = 0x00#8 ∨ 0x0A ≤ info.toNat)) ∨
  (status = 0x11#8 ∧ info.toNat ≤ 63) ∨
  status = 0x12#8 ∨
  (status = 0x13#8 ∧ info.toNat < p.charsMax)

/-- A response is well formed (60_exceptions.md rule R330): OK with info 0 and a result in its formats, or a fault with
no result. -/
def Response.wf (p : Params) (r : Response) : Prop :=
  (r.status = 0x00#8 ∧ r.info = 0x00#8 ∧ ∃ x, r.result = some x ∧ x.inFormat p) ∨
  (blockFault p r.status r.info ∧ r.result = none)

/-- The invariant of an instance: its parameters are legal and the response it shows, if any, is well formed. -/
def Inv (s : State) : Prop := s.params.wf = true ∧ ∀ r, s.response = some r → r.wf s.params

/-! ## The block's fields, as the spec writes them out -/

/-- The raw values of 43_navblock_encode.md rule R201, over exact rationals. -/
def rawValue (x : NavInput) : Nat → Int
  | 0 => 1
  | 2 => x.mmsi
  | 3 => x.navStatus
  | 4 => rotScale x.rateOfTurn
  | 5 => trunc (10 * x.speedOverGround)
  | 6 => if x.positionAccurate then 1 else 0
  | 7 => trunc (600000 * x.longitude)
  | 8 => trunc (600000 * x.latitude)
  | 9 => trunc (10 * x.courseOverGround)
  | 10 => x.trueHeading
  | 11 => x.timestampSeconds
  | 12 => x.maneuverIndicator
  | 13 => x.spare
  | 14 => if x.raim then 1 else 0
  | 15 => x.radioStatus
  | _ => 0

/-- The ranges of 43_navblock_encode.md rule R203 (rules R210 to R225), written out. -/
def FieldFits (k : Nat) (f : Int) : Prop :=
  match k with
  | 2 => 0 ≤ f ∧ f < 1073741824
  | 3 => 0 ≤ f ∧ f ≤ 15
  | 4 => -128 ≤ f ∧ f ≤ 128
  | 5 => 0 ≤ f ∧ f ≤ 1023
  | 7 => -134217728 ≤ f ∧ f ≤ 134217727
  | 8 => -67108864 ≤ f ∧ f ≤ 67108863
  | 9 => 0 ≤ f ∧ f ≤ 4095
  | 10 => 0 ≤ f ∧ f ≤ 511
  | 11 => 0 ≤ f ∧ f ≤ 63
  | 12 => 0 ≤ f ∧ f ≤ 3
  | 13 => 0 ≤ f ∧ f ≤ 7
  | 15 => 0 ≤ f ∧ f ≤ 524287
  | _ => True

/-- Every field of the record fits (43_navblock_encode.md rule R203). -/
def AllFit (x : NavInput) : Prop := ∀ k, k < 16 → FieldFits k (rawValue x k)

/-- Column "width" of 30_encoding.md rule R81. -/
def busWidth (k : Nat) : Nat := [6, 2, 30, 4, 8, 10, 1, 28, 27, 12, 9, 6, 2, 3, 1, 19].getD k 0

/-- The low end of column "bus slice" of 30_encoding.md rule R81. -/
def busLow (k : Nat) : Nat := [162, 160, 130, 126, 118, 108, 107, 79, 52, 40, 31, 25, 23, 20, 19, 0].getD k 0

/-- The block of a record on its bus: field `k` inserted as `u_k · 2^(168−o_{k+1})` (40_bitfield_codec.md rule R144),
`u_k` being the raw value modulo `2^w_k`. -/
def blockOf (x : NavInput) : Block :=
  BitVec.ofNat 168
    ((List.range 16).map fun k => (rawValue x k % (2 ^ busWidth k : Int)).toNat * 2 ^ busLow k).sum

/-- The accepted ranges of VALIDATE (45_sentence_validator.md rule R300), written out; fields 6, 13 and 15 are not
checked (rule R304), and field 14 is a Boolean by its type. -/
def Accepted (r : NavRecord) : Nat → Prop
  | 0 => r.msgType = 1 ∨ r.msgType = 2 ∨ r.msgType = 3 ∨ r.msgType = 5 ∨ r.msgType = 18
  | 1 => r.repeatInd = 0
  | 2 => 99999 < r.mmsi ∧ r.mmsi < 1000000000
  | 3 => r.navStatus < 16
  | 4 => -128 ≤ r.rot ∧ r.rot ≤ 128
  | 5 => (0 ≤ r.sog ∧ r.sog ≤ 102) ∨ r.sog = 1022 ∨ r.sog = 1023
  | 7 => -180 ≤ r.lon ∧ r.lon ≤ 181
  | 8 => -90 ≤ r.lat ∧ r.lat ≤ 91
  | 9 => (-360 ≤ r.cog ∧ r.cog ≤ 360) ∨ r.cog = 3600
  | 10 => r.hdg ≤ 359 ∨ r.hdg = 511
  | 11 => 1 ≤ r.ts ∧ r.ts < 63
  | 12 => r.maneuver < 3
  | _ => True

/-- The sequences of a request are within the limits of an instance (40_bitfield_codec.md rule R130, 41_sixbit_armor.md
rule R161). -/
def WithinLimits (p : Params) : Request → Prop
  | .unpackU b | .unpackS b | .unpackRot b => b.length ≤ p.wmax
  | .armorEnc b => b.length ≤ p.bitsMax
  | .armorDec c => c.length ≤ p.charsMax
  | _ => True

/-! ## Duties of the requester -/

/-- 70_reset_and_hazards.md rule R364: a measured speed is below 102.2 knots; 102.2 and 102.3 are the sentinels.
DESIGN CHOICE (log entry 20): a measured speed is not negative; the rule names no lower bound. -/
def SpeedDuty (x : NavInput) : Prop :=
  0 ≤ x.speedOverGround ∧
    (x.speedOverGround < 1022 / 10 ∨ x.speedOverGround = 1022 / 10 ∨ x.speedOverGround = 1023 / 10)

/-- 70_reset_and_hazards.md rule R367: a measured rate of turn is at most 725 in magnitude and is not 128 or −128. -/
def MeasuredRot (x : NavInput) : Prop :=
  -725 ≤ x.rateOfTurn ∧ x.rateOfTurn ≤ 725 ∧ x.rateOfTurn ≠ 128 ∧ x.rateOfTurn ≠ -128

/-- 70_reset_and_hazards.md rule R373: operand ranges whose round trip VALIDATE accepts, each operand also within what
its field holds (43_navblock_encode.md rule R203). DESIGN CHOICE (log entry 20): speeds are 0 to 102 and the two
sentinels, courses are from 0; the rule names 102.1 knots and courses above 360 degrees alone, so operands finer than a
tenth that truncate to an accepted raw value (102.05, 102.25, −0.05) are left out. -/
def ValidatingInput (x : NavInput) : Prop :=
  (100000 ≤ x.mmsi ∧ x.mmsi ≤ 999999999) ∧ (0 ≤ x.navStatus ∧ x.navStatus ≤ 15) ∧
    (-128 ≤ rotScale x.rateOfTurn ∧ rotScale x.rateOfTurn ≤ 128) ∧
    (0 ≤ x.speedOverGround ∧ x.speedOverGround ≤ 102 ∨ x.speedOverGround = 1022 / 10 ∨ x.speedOverGround = 1023 / 10) ∧
    (-180 ≤ x.longitude ∧ x.longitude ≤ 181) ∧ (-90 ≤ x.latitude ∧ x.latitude ≤ 91) ∧
    (0 ≤ x.courseOverGround ∧ x.courseOverGround ≤ 360) ∧
    (0 ≤ x.trueHeading ∧ x.trueHeading ≤ 359 ∨ x.trueHeading = 511) ∧
    (1 ≤ x.timestampSeconds ∧ x.timestampSeconds ≤ 62) ∧
    (0 ≤ x.maneuverIndicator ∧ x.maneuverIndicator ≤ 2) ∧ (0 ≤ x.spare ∧ x.spare ≤ 7) ∧
    (0 ≤ x.radioStatus ∧ x.radioStatus ≤ 524287)

/-- 70_reset_and_hazards.md rule R366: under `wrap` the host sends only a block whose mask is clear. -/
def MaskClear (e : Encoded) : Prop := e.ovfMask = zeros 16

/-- The parameters let a 168-bit block through the sentence layer: 28 symbols and a 43-byte body
(45_sentence_validator.md rule R283). -/
def CarriesBlocks (p : Params) : Prop := 168 ≤ p.bitsMax ∧ 43 ≤ p.bodyMax

end Sys2Proof.Machine
end

