-- ==== Sys2Proof/Certificates/Slice0/Obligations.lean ====
section
/-! DEFINITION. The statements for the provers, from the numbered rules of spec/. -/

open Sys2Proof Sys2Proof.Machine

/-! ## The step, decoding and the ports -/

/-- A step answers the next request by running the operation its command byte decodes to, on the state in which that
request stands on the ports and the rest of the program waits (00_scope.md R8, 60_exceptions.md R341; the pending list
is the model's own, log entry 3). -/
def Obligations.StepRunsDecodedOperation : Prop :=
  ∀ (s : State) (r : RequestPorts) (rest : List RequestPorts) (i : Instr),
    s.pending = r :: rest → decode [r.cmd] = .ok (i, []) →
      step s = exec i { s with request := r, pending := rest }

/-- A reserved command byte is answered with IllegalOperation and the byte (60_exceptions.md R327, 30_encoding.md
R104), and nothing else changes (the pending list is the model's own, log entry 3, and so is that the answered request
stays on its ports, log entry 5). -/
def Obligations.ReservedCommandIsIllegalOperation : Prop :=
  ∀ (s : State) (r : RequestPorts) (rest : List RequestPorts),
    s.pending = r :: rest →
    (r.cmd = 0x00#8 ∨ (0x0A ≤ r.cmd.toNat ∧ r.cmd.toNat ≤ 0x0F) ∨ r.cmd.extractLsb 7 4 ≠ 0#4) →
      step s = .next { s with request := r, pending := rest, response := some ⟨0x10#8, r.cmd, none⟩ }

/-- With no request pending a step changes nothing: a response is produced only for a request (60_exceptions.md R332;
that an idle step exists is the model's choice, log entry 3). -/
def Obligations.IdleStepChangesNothing : Prop :=
  ∀ s : State, s.pending = [] → step s = .next s

/-- After reset the parameters are the defaults of 00_scope.md R10 and the response ports have no value (10_state.md
R43). The model's choices here: that State.reset is the default instance, log entry 2 (70_reset_and_hazards.md R361: the
parameters of any instance survive, ParametersSurviveReset), and that no request is pending, log entry 3. -/
def Obligations.ResetHasDefaultsAndNoResponse : Prop :=
  State.reset.params = ⟨32, 32, 16, 10000000, 10, 10, 168, 255, .fail⟩ ∧
    State.reset.pending = [] ∧ State.reset.response = none

/-- The nine operation codes of 30_encoding.md R103. -/
def Obligations.OperationCodesDecode : Prop :=
  decode [0x01#8] = .ok (.pack, []) ∧ decode [0x02#8] = .ok (.unpackU, []) ∧ decode [0x03#8] = .ok (.unpackS, []) ∧
  decode [0x04#8] = .ok (.unpackRot, []) ∧ decode [0x05#8] = .ok (.armorEnc, []) ∧
  decode [0x06#8] = .ok (.armorDec, []) ∧ decode [0x07#8] = .ok (.csum, []) ∧ decode [0x08#8] = .ok (.navEnc, []) ∧
  decode [0x09#8] = .ok (.navDec, [])

/-- The decoder is total and exact (30_encoding.md R105): a command byte is an operation's byte and decodes to it, or it
is reserved by R104 and decodes to nothing; never both. Every row of the table has mask 0xFF. -/
def Obligations.EveryCommandIsOperationOrReserved : Prop :=
  (∀ c : Byte,
    (∃ i : Instr, c = i.cmd ∧ decodeCmd c = .ok i) ∨
    ((∃ e, decodeCmd c = .error e) ∧ (c = 0x00#8 ∨ (0x0A ≤ c.toNat ∧ c.toNat ≤ 0x0F) ∨ c.extractLsb 7 4 ≠ 0#4) ∧
      ∀ i : Instr, c ≠ i.cmd)) ∧
  ∀ row ∈ opcodeRows, row.mask = 0xFF#8 ∧ row.pattern = row.instr.cmd

/-- Decoding undoes encoding, and only the encoding of an operation decodes to it (30_encoding.md R102, R103). -/
def Obligations.DecodeAndEncodeAgree : Prop :=
  (∀ (i : Instr) (rest : Bytes), decode (encode i ++ rest) = .ok (i, rest)) ∧
  ∀ (bytes : Bytes) (i : Instr) (rest : Bytes), decode bytes = .ok (i, rest) → bytes = encode i ++ rest

/-- What the host presents is what the block reads: every request that the ports can carry, with every operand at every
value the ports admit, is read back from the ports it is driven on (10_state.md R38, R39; 30_encoding.md R102 to R104).
That the ports the operation does not read are driven to zero is the model's choice, log entry 4. -/
def Obligations.PortsCarryEveryRequest : Prop :=
  ∀ (p : Params) (r : Request), p.wf = true → r.onPorts p = true → requestOn p (driveRequest p r) = r

/-- A signed operand port reads its wires in two's complement (10_state.md R38, 00_scope.md R15 and R17). That the wires
above its width are ignored is the model's choice, log entry 9: the spec gives such a port no wires above its width. -/
def Obligations.SignedPortReadsTwosComplement : Prop :=
  ∀ width bus : Nat, 1 ≤ width →
    signedBus width bus =
      if bus % 2 ^ width < 2 ^ (width - 1) then ((bus % 2 ^ width : Nat) : Int)
      else ((bus % 2 ^ width : Nat) : Int) - (2 ^ width : Int)

/-- The place of a word of the table: the step after withFetchWord runs exactly the operation of that command byte, on
the operands that stand on the ports (the model's choices: log entry 17 for the placing, log entry 5
for what stands on the ports). -/
def Obligations.FetchWordRunsItsOperation : Prop :=
  ∀ (s : State) (i : Instr),
    step (s.withFetchWord 8 i.cmd.toNat) = exec i { s with request := { s.request with cmd := i.cmd } }

/-! ## Statelessness, frames, faults, the invariant -/

/-- Equal operands have equal outcomes, whatever ran before (10_state.md R36): two states of instances with the same
parameters whose next requests select the same operation with the same operand values complete with the same
response (the pending list is the model's own, log entry 3). -/
def Obligations.EqualRequestsHaveEqualResponses : Prop :=
  ∀ (s t : State) (r q : RequestPorts) (rs qs : List RequestPorts),
    s.params = t.params → s.pending = r :: rs → t.pending = q :: qs →
    requestOn s.params r = requestOn t.params q →
      ∃ s' t' : State, step s = .next s' ∧ step t = .next t' ∧ s'.response = t'.response ∧ s'.response ≠ none

/-- A program is answered request by request, each as if it were alone (10_state.md R30, 20_memory.md R65,
60_exceptions.md R331; the pending list is the model's own, log entry 3): after n+1 steps the response is the pure
outcome of request n of the program, that request still stands on its ports (the model's choice, log entry 5), and the
parameters and the rest of the program are untouched. -/
def Obligations.ProgramIsAnsweredRequestByRequest : Prop :=
  ∀ (n : Nat) (s : State) (r : RequestPorts), s.pending[n]? = some r →
    ∃ t : State, Host.Core.run Sys2Proof.core (n + 1) s = .next t ∧
      t.response = some (responseOf (block s.params (requestOn s.params r))) ∧
      t.params = s.params ∧ t.request = r ∧ t.pending = s.pending.drop (n + 1)

/-- The frame of all nine operations: exec completes and changes the response ports only (20_memory.md R62,
60_exceptions.md R330). There is no register, flag, accumulator, program counter or memory to change. -/
def Obligations.OperationsChangeOnlyTheResponse : Prop :=
  ∀ (i : Instr) (s : State), ∃ t : State, exec i s = .next t ∧
    t.params = s.params ∧ t.pending = s.pending ∧ t.request = s.request ∧ t.response ≠ none

/-- Which faults each operation can deliver through its ports (60_exceptions.md R323, the block's rows). -/
def Obligations.FaultsByOperation : Prop :=
  ∀ (i : Instr) (s t : State) (r : Response),
    exec i s = .next t → t.response = some r → r.status ≠ 0x00#8 →
      match i with
      | .pack | .unpackU | .unpackS | .unpackRot => r.status = 0x11#8
      | .armorEnc | .csum => r.status = 0x12#8
      | .armorDec => r.status = 0x12#8 ∨ r.status = 0x13#8
      | .navEnc => r.status = 0x04#8 ∧ s.params.overflowPolicy = .fail
      | .navDec => False

/-- Delivery (60_exceptions.md R330, R322): a response with status OK has info 0 and a result, any other status comes
with no result. -/
def Obligations.ResultExactlyWhenStatusOk : Prop :=
  ∀ (i : Instr) (s : State), ∃ (t : State) (r : Response), exec i s = .next t ∧ t.response = some r ∧
    ((r.status = 0x00#8 ∧ r.info = 0x00#8 ∧ r.result ≠ none) ∨ (r.status ≠ 0x00#8 ∧ r.result = none))

/-- The invariant: an instance with legal parameters, whatever program it is given, shows after every step a response
in the formats of 10_state.md R40 and R41 or a fault of 60_exceptions.md R321 and R322. The model's choices in it: which
parameters are legal (log entry 14), and the formats of ARMOR, whose unused lanes and wires are zero and whose ARMOR.DEC
result is kept whole where `BITS_MAX` is not a multiple of 6 (log entry 10). -/
def Obligations.StepKeepsResponsesWellFormed : Prop :=
  ∀ s t : State, Inv s → step s = .next t → Inv t

/-- The invariant holds after reset. The model's choices in it: that State.reset is the default instance, log entry 2,
and which parameters are legal, log entry 14. -/
def Obligations.ResetMeetsInvariant : Prop := Inv State.reset

/-- What survives reset (70_reset_and_hazards.md R361, 10_state.md R42 and R43): the parameters of every instance; the
response ports lose their value, the first request after reset is answered as it would have been without it, and the
invariant holds after reset of every legal instance. The model's choices: log entry 2 (the reset as a function), 3 (the
pending list, which the reset leaves), 14 (legal parameters). -/
def Obligations.ParametersSurviveReset : Prop :=
  (∀ p : Params, (State.resetOf p).params = p ∧ (p.wf = true → Inv (State.resetOf p))) ∧
  ∀ s : State, s.afterReset.params = s.params ∧ s.afterReset.response = none ∧
    (Inv s → Inv s.afterReset) ∧ (s.pending ≠ [] → step s.afterReset = step s)

/-! ## BitFieldCodec -/

/-- PACK (40_bitfield_codec.md R131): the value modulo 2^width right-aligned on the result bus with both overflow
indications, or WidthOutOfRange with the width; never a fault on the value. -/
def Obligations.PackResult : Prop :=
  decode [0x01#8] = .ok (.pack, []) ∧
  ∀ (s : State) (w : Nat) (v : Int), w = s.request.width.toNat → v = valueIn s.params s.request →
    (1 ≤ w ∧ w ≤ s.params.wmax →
      exec .pack s = .next { s with response := some ⟨0x00#8, 0x00#8, some (.packed (v % (2 ^ w : Int)).toNat
        (decide (¬ (0 ≤ v ∧ v < (2 ^ w : Int))))
        (decide (¬ (-(2 ^ (w - 1) : Int) ≤ v ∧ v < (2 ^ (w - 1) : Int)))))⟩ }) ∧
    (¬ (1 ≤ w ∧ w ≤ s.params.wmax) →
      exec .pack s = .next { s with response := some ⟨0x11#8, BitVec.ofNat 8 w, none⟩ })

/-- UNPACK.U (40_bitfield_codec.md R136): the unsigned value of the low `width` wires, or WidthOutOfRange. -/
def Obligations.UnpackUnsignedResult : Prop :=
  decode [0x02#8] = .ok (.unpackU, []) ∧
  ∀ (s : State) (w : Nat), w = s.request.width.toNat →
    (1 ≤ w ∧ w ≤ s.params.wmax →
      exec .unpackU s = .next { s with response := some ⟨0x00#8, 0x00#8, some (.value ((s.request.bits % 2 ^ w : Nat) : Int))⟩ }) ∧
    (¬ (1 ≤ w ∧ w ≤ s.params.wmax) →
      exec .unpackU s = .next { s with response := some ⟨0x11#8, BitVec.ofNat 8 w, none⟩ })

/-- UNPACK.S (40_bitfield_codec.md R138): plain two's complement of the low `width` wires, or WidthOutOfRange. -/
def Obligations.UnpackSignedResult : Prop :=
  decode [0x03#8] = .ok (.unpackS, []) ∧
  ∀ (s : State) (w u : Nat), w = s.request.width.toNat → u = s.request.bits % 2 ^ w →
    (1 ≤ w ∧ w ≤ s.params.wmax →
      exec .unpackS s = .next { s with response := some ⟨0x00#8, 0x00#8,
        some (.value (if u.testBit (w - 1) then (u : Int) - (2 ^ w : Int) else (u : Int)))⟩ }) ∧
    (¬ (1 ≤ w ∧ w ≤ s.params.wmax) →
      exec .unpackS s = .next { s with response := some ⟨0x11#8, BitVec.ofNat 8 w, none⟩ })

/-- UNPACK.ROT (40_bitfield_codec.md R140), on an instance whose bus has the 8 wires R140 reads: width 8 only; the
pattern 10000000 is +128, every other pattern its two's-complement value. A `WMAX` below 8 is
UnpackRotOnANarrowInstance. -/
def Obligations.UnpackRotResult : Prop :=
  decode [0x04#8] = .ok (.unpackRot, []) ∧
  ∀ (s : State) (u : Nat), u = s.request.bits % 256 →
    (s.request.width = 8#6 → 8 ≤ s.params.wmax →
      exec .unpackRot s = .next { s with response := some ⟨0x00#8, 0x00#8,
        some (.value (if u = 128 then 128 else if 128 < u then (u : Int) - 256 else (u : Int)))⟩ }) ∧
    (s.request.width ≠ 8#6 →
      exec .unpackRot s = .next { s with response := some ⟨0x11#8, BitVec.ofNat 8 s.request.width.toNat, none⟩ })

/-- UNPACK.ROT where `WMAX` is below 8: no width is legal, so every request is WidthOutOfRange. The model's reading of
40_bitfield_codec.md R130 beside R140 (log entry 15). -/
def Obligations.UnpackRotOnANarrowInstance : Prop :=
  ∀ s : State, s.params.wmax < 8 →
    exec .unpackRot s = .next { s with response := some ⟨0x11#8, BitVec.ofNat 8 s.request.width.toNat, none⟩ }

/-- The inverse laws (a) to (d) of 40_bitfield_codec.md R142. -/
def Obligations.PackAndUnpackAreInverse : Prop :=
  ∀ p : Params,
    (∀ (w : Nat) (v : Int), 1 ≤ w → w ≤ p.wmax → 0 ≤ v → v < (2 ^ w : Int) →
      ((pack p v w).andThen fun r => unpackU p r.bits) = .ok v) ∧
    (∀ (w : Nat) (v : Int), 1 ≤ w → w ≤ p.wmax → -(2 ^ (w - 1) : Int) ≤ v → v < (2 ^ (w - 1) : Int) →
      ((pack p v w).andThen fun r => unpackS p r.bits) = .ok v) ∧
    (8 ≤ p.wmax → ∀ v : Int, -127 ≤ v → v ≤ 128 → ((pack p v 8).andThen fun r => unpackRot p r.bits) = .ok v) ∧
    (8 ≤ p.wmax → ((pack p (-128) 8).andThen fun r => unpackRot p r.bits) = .ok 128) ∧
    (∀ b : Bits, 1 ≤ b.length → b.length ≤ p.wmax →
      (((unpackU p b).andThen fun v => pack p v b.length).map Packed.bits) = .ok b ∧
      (((unpackS p b).andThen fun v => pack p v b.length).map Packed.bits) = .ok b ∧
      (b.length = 8 → (((unpackRot p b).andThen fun v => pack p v 8).map Packed.bits) = .ok b))

/-- The overflow indications are exact (40_bitfield_codec.md R132): `ovf_u` is set exactly when the value is not the
unsigned value of the returned bits, `ovf_s` exactly when it is not their two's-complement value. -/
def Obligations.OverflowIndicationsAreExact : Prop :=
  ∀ (p : Params) (v : Int) (w : Nat), 1 ≤ w → w ≤ p.wmax →
    ∃ r : Packed, pack p v w = .ok r ∧ (r.ovfU = true ↔ (valU r.bits : Int) ≠ v) ∧ (r.ovfS = true ↔ valS r.bits ≠ v)

/-- PACK is reduction modulo 2^width (40_bitfield_codec.md R133): values that differ by a multiple of 2^w pack to the
same bits, and to no others. -/
def Obligations.PackIsReductionModuloWidth : Prop :=
  ∀ (p : Params) (v u : Int) (w : Nat), 1 ≤ w → w ≤ p.wmax →
    ((pack p v w).map Packed.bits = (pack p u w).map Packed.bits ↔ (2 ^ w : Int) ∣ v - u)

/-- UNPACK.ROT and UNPACK.S agree on every 8-bit pattern but 10000000, and UNPACK.ROT never gives −128
(40_bitfield_codec.md R140, R141). -/
def Obligations.RotExceptionIsTheOnlyDifference : Prop :=
  ∀ (p : Params) (b : Bits), 8 ≤ p.wmax → b.length = 8 →
    (b ≠ [true, false, false, false, false, false, false, false] → unpackRot p b = unpackS p b) ∧
    ∃ v : Int, unpackRot p b = .ok v ∧ -127 ≤ v ∧ v ≤ 128

/-- UNPACK over abstract sequences (40_bitfield_codec.md R130, its last sentence): the empty sequence is
WidthOutOfRange, a sequence of any other length has its value, however long, and UNPACK.ROT takes 8 bits only. The
values are those of R136, R138 and R140. On an instance a sequence above `WMAX` is WidthOutOfRange with its length, and one within it has the abstract outcome. The
model's choices: that 8 bits of UNPACK.ROT on an instance with `WMAX` below 8 are WidthOutOfRange, log entry 15, and that
the info is the length modulo 256 where that is 256 or more, log entry 12. -/
def Obligations.UnpackOverAbstractSequences : Prop :=
  ∀ b : Bits,
    (b = [] → unpackUSeq b = .fault .widthOutOfRange 0#8 ∧ unpackSSeq b = .fault .widthOutOfRange 0#8) ∧
    (∀ u : Nat, 1 ≤ b.length → u = valU b →
      unpackUSeq b = .ok (u : Int) ∧
      unpackSSeq b = .ok (if u.testBit (b.length - 1) then (u : Int) - (2 ^ b.length : Int) else (u : Int))) ∧
    (b.length ≠ 8 → ∀ info : Byte, info.toNat = b.length % 256 → unpackRotSeq b = .fault .widthOutOfRange info) ∧
    (b.length = 8 → ∀ u : Nat, u = valU b →
      unpackRotSeq b = .ok (if u = 128 then 128 else if 128 < u then (u : Int) - 256 else (u : Int))) ∧
    ∀ p : Params,
      (b.length ≤ p.wmax → unpackU p b = unpackUSeq b ∧ unpackS p b = unpackSSeq b ∧ unpackRot p b = unpackRotSeq b) ∧
      (p.wmax < b.length → ∀ info : Byte, info.toNat = b.length % 256 →
        unpackU p b = .fault .widthOutOfRange info ∧ unpackS p b = .fault .widthOutOfRange info ∧
          unpackRot p b = .fault .widthOutOfRange info)

/-! ## SixBitArmor -/

/-- ARMOR.ENC (41_sixbit_armor.md R162, R163, with the alphabet in the closed form of 30_encoding.md R91): with n bits
on the port, zero bits are appended up to m = ceil(n/6) groups, lane j carries the symbol of group j, and nothing
stands on the lanes above; a count above `BITS_MAX` is LengthOutOfRange. The model's choices: the wires of the bus from
`nbits` up to `BITS_MAX` are ignored (log entry 9), and the lanes above are zero (log entry 10). -/
def Obligations.ArmorEncodeResult : Prop :=
  decode [0x05#8] = .ok (.armorEnc, []) ∧
  ∀ (s : State) (n m : Nat), n = s.request.nbits.toNat → m = (n + 5) / 6 →
    (n ≤ s.params.bitsMax →
      ∃ bus : Nat, exec .armorEnc s = .next { s with response := some ⟨0x00#8, 0x00#8, some (.armored (BitVec.ofNat 8 m) bus)⟩ } ∧
        bus < 256 ^ m ∧
        ∀ j, j < m → ∀ k, k = s.request.abits % 2 ^ n * 2 ^ (6 * m - n) / 64 ^ (m - 1 - j) % 64 →
          lane bus j = BitVec.ofNat 8 (if k ≤ 39 then k + 48 else k + 56)) ∧
    (¬ n ≤ s.params.bitsMax →
      exec .armorEnc s = .next { s with response := some ⟨0x12#8, BitVec.ofNat 8 n, none⟩ })

/-- ARMOR.DEC (41_sixbit_armor.md R167, R168, with the inverse alphabet in the closed form of 30_encoding.md R92): with
n symbols on the lanes the result is 6n bits of which group j is the six-bit value of lane j; the first byte that is no
symbol is reported with its index; a count above `ceil(BITS_MAX/6)` is LengthOutOfRange. The model's choices, log
entry 10: nothing stands on the wires above, and all 6n bits are kept where they are more than `BITS_MAX`. -/
def Obligations.ArmorDecodeResult : Prop :=
  decode [0x06#8] = .ok (.armorDec, []) ∧
  ∀ (s : State) (n : Nat), n = s.request.nchars.toNat →
    (n ≤ (s.params.bitsMax + 5) / 6 → (∀ j, j < n → unsym (lane s.request.chars j) ≠ none) →
      ∃ bus : Nat, exec .armorDec s = .next { s with response := some ⟨0x00#8, 0x00#8, some (.dearmored bus (6 * n))⟩ } ∧
        bus < 64 ^ n ∧
        ∀ j, j < n → ∀ c, c = (lane s.request.chars j).toNat →
          (0x30 ≤ c ∧ c ≤ 0x57 ∧ bus / 64 ^ (n - 1 - j) % 64 = c - 48) ∨
          (0x60 ≤ c ∧ c ≤ 0x77 ∧ bus / 64 ^ (n - 1 - j) % 64 = c - 56)) ∧
    (n ≤ (s.params.bitsMax + 5) / 6 → ∀ j, j < n → unsym (lane s.request.chars j) = none →
      (∀ i, i < j → unsym (lane s.request.chars i) ≠ none) →
        exec .armorDec s = .next { s with response := some ⟨0x13#8, BitVec.ofNat 8 j, none⟩ }) ∧
    (¬ n ≤ (s.params.bitsMax + 5) / 6 →
      exec .armorDec s = .next { s with response := some ⟨0x12#8, BitVec.ofNat 8 n, none⟩ })

/-- Which bytes are symbols (30_encoding.md R90 to R92): `unsym` is defined exactly on the 64 bytes of the alphabet, is
inverse to `sym`, and both have the closed forms. -/
def Obligations.AlphabetIsABijection : Prop :=
  (∀ k, k < 64 → sym k = BitVec.ofNat 8 (if k ≤ 39 then k + 48 else k + 56) ∧ unsym (sym k) = some k) ∧
  (∀ c : Byte, unsym c ≠ none ↔ c ∈ alphabet) ∧
  (∀ (c : Byte) (k : Nat), unsym c = some k → k < 64 ∧ sym k = c) ∧
  alphabet.length = 64

/-- Armor and dearmor are inverse (41_sixbit_armor.md R170): a sequence comes back with its pad bits, alphabet symbols
come back as they are, and both operations are injective where they do not fault (ARMOR.ENC on multiples of 6). -/
def Obligations.ArmorIsInverse : Prop :=
  ∀ p : Params,
    (∀ x : Bits, x.length ≤ p.bitsMax →
      (armorEnc p x).andThen (armorDec p) = .ok (x ++ List.replicate ((6 - x.length % 6) % 6) false)) ∧
    (∀ c : Bytes, (∀ b ∈ c, unsym b ≠ none) → c.length ≤ p.charsMax → 6 * c.length ≤ p.bitsMax →
      (armorDec p c).andThen (armorEnc p) = .ok c) ∧
    (∀ x y : Bits, ∀ c : Bytes, x.length % 6 = 0 → y.length % 6 = 0 → armorEnc p x = .ok c → armorEnc p y = .ok c → x = y) ∧
    (∀ (c d : Bytes) (x : Bits), armorDec p c = .ok x → armorDec p d = .ok x → c = d)

/-- A payload cannot break the frame (41_sixbit_armor.md R164): every byte ARMOR.ENC gives is a symbol, and none is
`!`, `*` or `,`. -/
def Obligations.ArmoredBytesCannotBreakTheFrame : Prop :=
  ∀ (p : Params) (x : Bits) (c : Bytes), armorEnc p x = .ok c →
    c.length = (x.length + 5) / 6 ∧ ∀ b ∈ c, b ∈ alphabet ∧ b ≠ 0x21#8 ∧ b ≠ 0x2A#8 ∧ b ≠ 0x2C#8

/-- The block over abstract sequences: ARMOR has no length limit there and ARMOR.DEC undoes ARMOR.ENC at every length
(41_sixbit_armor.md R161, R170), and for every request within the limits of an instance the outcome of the instance is
the abstract one (00_scope.md R10: a parameter only restricts which operand values a request can carry). That CSUM keeps
`BODY_MAX` there is the model's choice, log entry 11. -/
def Obligations.InstanceAgreesWithAbstractSequences : Prop :=
  (∀ x : Bits,
    (armorEncSeq x).andThen armorDecSeq = .ok (x ++ List.replicate ((6 - x.length % 6) % 6) false)) ∧
  ∀ (p : Params) (r : Request), WithinLimits p r → block p r = blockSeq p r

/-! ## ChecksumCalculator -/

/-- CSUM (42_checksum.md R181): the XOR of the n bytes on the lanes, with its two uppercase hex digits, high digit
first; a count above `BODY_MAX` is LengthOutOfRange. -/
def Obligations.ChecksumResult : Prop :=
  decode [0x07#8] = .ok (.csum, []) ∧
  ∀ (s : State) (n : Nat), n = s.request.nbody.toNat →
    (n ≤ s.params.bodyMax → ∀ cs : Byte, cs = ((List.range n).map (lane s.request.body)).foldr (· ^^^ ·) 0x00#8 →
      exec .csum s = .next { s with response := some ⟨0x00#8, 0x00#8, some (.checksum cs
        (BitVec.ofNat 8 (if cs.toNat / 16 < 10 then 0x30 + cs.toNat / 16 else 0x37 + cs.toNat / 16))
        (BitVec.ofNat 8 (if cs.toNat % 16 < 10 then 0x30 + cs.toNat % 16 else 0x37 + cs.toNat % 16)))⟩ }) ∧
    (¬ n ≤ s.params.bodyMax →
      exec .csum s = .next { s with response := some ⟨0x12#8, BitVec.ofNat 8 n, none⟩ })

/-- The algebra of the checksum (42_checksum.md R183): concatenation is XOR, order does not matter, a doubled body
gives 0, and appending the checksum gives 0. -/
def Obligations.ChecksumAlgebra : Prop :=
  ∀ p : Params,
    (∀ (a b : Bytes) (ra rb rab : Checksum),
      csum p a = .ok ra → csum p b = .ok rb → csum p (a ++ b) = .ok rab → rab.cs = ra.cs ^^^ rb.cs) ∧
    (∀ a b : Bytes, a.Perm b → csum p a = csum p b) ∧
    (∀ (a : Bytes) (r : Checksum), csum p (a ++ a) = .ok r → r.cs = 0x00#8) ∧
    (∀ (a : Bytes) (ra r : Checksum), csum p a = .ok ra → csum p (a ++ [ra.cs]) = .ok r → r.cs = 0x00#8)

/-- Replacing one byte of a body by a different byte always changes the checksum and its digits (42_checksum.md
R185). -/
def Obligations.ByteReplacementChangesChecksum : Prop :=
  ∀ (p : Params) (a b : Bytes) (x y : Byte) (r q : Checksum), x ≠ y →
    csum p (a ++ x :: b) = .ok r → csum p (a ++ y :: b) = .ok q → r.cs ≠ q.cs ∧ r.csHex ≠ q.csHex

/-! ## NavigationBlockCodec, encode -/

/-- NAV.ENC on a record whose fields all fit, under either policy (43_navblock_encode.md R201): the block is the
sixteen raw values, each modulo 2^w at its bus slice, and the mask is clear. -/
def Obligations.NavEncodeFitting : Prop :=
  ∀ s : State, AllFit (navIn s.params s.request) →
    exec .navEnc s = .next { s with response := some ⟨0x00#8, 0x00#8,
      some (.block (blockOf (navIn s.params s.request)) 0#16)⟩ }

/-- NAV.ENC under policy `fail` (43_navblock_encode.md R205): the lowest-numbered field that does not fit is reported
by EncodingOverflow, and no block is returned. -/
def Obligations.NavEncodeReportsLowestOverflow : Prop :=
  ∀ (s : State) (k : Nat), s.params.overflowPolicy = .fail → k < 16 →
    ¬ FieldFits k (rawValue (navIn s.params s.request) k) →
    (∀ j, j < k → FieldFits j (rawValue (navIn s.params s.request) j)) →
      exec .navEnc s = .next { s with response := some ⟨0x04#8, BitVec.ofNat 8 k, none⟩ }

/-- NAV.ENC under policy `wrap` (43_navblock_encode.md R206, R204): it never faults, every field is its raw value
modulo 2^w, and mask bit 15−k is set exactly when field k does not fit. -/
def Obligations.NavEncodeWrapping : Prop :=
  ∀ s : State, s.params.overflowPolicy = .wrap →
    ∃ mask : BitVec 16,
      exec .navEnc s = .next { s with response := some ⟨0x00#8, 0x00#8,
        some (.block (blockOf (navIn s.params s.request)) mask)⟩ } ∧
      ∀ k, k < 16 → (mask.getLsbD (15 - k) = true ↔ ¬ FieldFits k (rawValue (navIn s.params s.request) k))

/-- The layout law (30_encoding.md R82): every block NAV.ENC returns is exactly 168 bits, and slice k of it (rule R81)
is the PACK of raw value k at the width of field k. -/
def Obligations.EncodedBlockHas168Bits : Prop :=
  ∀ (p : Params) (x : NavInput) (e : Encoded), navEnc p x = .ok e → e.blk.length = 168 ∧
    ∀ k, k < 16 → (pack { p with wmax := 32 } (rawValue x k) (busWidth k)).map Packed.bits = .ok (fieldBits k e.blk)

/-- The all-default block (43_navblock_encode.md R226): what NAV.ENC makes of the defaults of 10_state.md R39 with
`mmsi` 0, and the payload ARMOR.ENC makes of it, whose bytes are those of `1000008P?w<tSF0l4Q@>4?wp0000`. -/
def Obligations.AllDefaultBlock : Prop :=
  navEnc Params.default (defaultInput 0) = .ok ⟨bitsOf 0x0400000002203FF33C8D603412140E10FFF8000000 168, zeros 16⟩ ∧
  armorEnc Params.default (bitsOf 0x0400000002203FF33C8D603412140E10FFF8000000 168) = .ok
    ([0x31#8, 0x30#8, 0x30#8, 0x30#8, 0x30#8, 0x30#8, 0x38#8, 0x50#8, 0x3F#8, 0x77#8, 0x3C#8, 0x74#8, 0x53#8, 0x46#8] ++
     [0x30#8, 0x6C#8, 0x34#8, 0x51#8, 0x40#8, 0x3E#8, 0x34#8, 0x3F#8, 0x77#8, 0x70#8, 0x30#8, 0x30#8, 0x30#8, 0x30#8])

/-- `rot_scale` (43_navblock_encode.md R208): ±128 is the sentinel 128; every other rate below 250000 in magnitude is
the signed integer strictly nearest to 4.733·sqrt(|x|), with the sign of the rate. -/
def Obligations.RotScaleIsNearest : Prop :=
  rotScale 128 = 128 ∧ rotScale (-128) = 128 ∧
  ∀ x : Int, x ≠ 128 → x ≠ -128 → x.natAbs < 250000 →
    |(rotScale x : ℝ) - (x.sign : ℝ) * (4733 / 1000 * Real.sqrt (x.natAbs : ℝ))| < 1 / 2

/-- Aliasing at the top of the ROT range (43_navblock_encode.md R228): magnitudes 726 to 737 scale to ±128 and so pack
to the sentinel pattern, magnitudes of 738 and more do not fit, and below 726 no rate but ±128 gives the sentinel. -/
def Obligations.RotAliasing : Prop :=
  (∀ x : Int, 726 ≤ x.natAbs → x.natAbs ≤ 737 →
    rotScale x = 128 * x.sign ∧ packBits (rotScale x) 8 = [true, false, false, false, false, false, false, false]) ∧
  (∀ x : Int, 738 ≤ x.natAbs → ¬ FieldFits 4 (rotScale x)) ∧
  (∀ x : Int, x.natAbs ≤ 725 → x ≠ 128 → x ≠ -128 → -127 ≤ rotScale x ∧ rotScale x ≤ 127)

/-- Scaling truncates toward zero (43_navblock_encode.md R207, R229): the raw value is `trunc` of the exact product,
never further from zero than it and less than one unit away. -/
def Obligations.ScalingTruncatesTowardZero : Prop :=
  ∀ (k : Nat) (q : Rat),
    truncMul k q = trunc (k * q) ∧ |(truncMul k q : Rat)| ≤ |k * q| ∧ |k * q - truncMul k q| < 1

/-- NAV.ENC is injective on raw values (43_navblock_encode.md R232): two blocks agree exactly when the sixteen raw
values agree modulo 2^w. -/
def Obligations.EncodedBlocksAgreeExactlyModuloWidths : Prop :=
  ∀ (p : Params) (x y : NavInput) (d e : Encoded), navEnc p x = .ok d → navEnc p y = .ok e →
    (d.blk = e.blk ↔ ∀ k, k < 16 → (2 ^ busWidth k : Int) ∣ rawValue x k - rawValue y k)

/-! ## NavigationBlockCodec, decode -/

/-- NAV.DEC (44_navblock_decode.md R241) on its 168-bit port: it always completes, and each component is its bus slice
of 30_encoding.md R81, with the ROT exception, the sentinel presentations and the numerators of 10_state.md R41. Over
abstract sequences a length other than 168 is BlockLengthMismatch with the length modulo 256. -/
def Obligations.NavDecodeResult : Prop :=
  decode [0x09#8] = .ok (.navDec, []) ∧
  (∀ b : Bits, b.length ≠ 168 → ∀ info : Byte, info.toNat = b.length % 256 →
    navDec b = .fault .blockLengthMismatch info) ∧
  ∀ (s : State) (b : Block), b = s.request.blk →
    exec .navDec s = .next { s with response := some ⟨0x00#8, 0x00#8, some (.record
      { msgType := b.extractLsb' 162 6
        repeatInd := b.extractLsb' 160 2
        mmsi := b.extractLsb' 130 30
        navStatus := b.extractLsb' 126 4
        rot := if b.extractLsb' 118 8 = 0x80#8 then 128#9 else (b.extractLsb' 118 8).signExtend 9
        sog := if b.extractLsb' 108 10 = 1022#10 then 10220#14
          else if b.extractLsb' 108 10 = 1023#10 then 10230#14 else (b.extractLsb' 108 10).setWidth 14
        posAcc := b.getLsbD 107
        lon := b.extractLsb' 79 28
        lat := b.extractLsb' 52 27
        cog := if b.extractLsb' 40 12 = 3600#12 then 36000#16 else (b.extractLsb' 40 12).setWidth 16
        hdg := b.extractLsb' 31 9
        ts := b.extractLsb' 25 6
        maneuver := b.extractLsb' 23 2
        spare := b.extractLsb' 20 3
        raim := b.getLsbD 19
        radio := b.extractLsb' 0 19 })⟩ }

/-- The numerator ports lose nothing (44_navblock_decode.md R243, 10_state.md R41): the record NAV.DEC gives over exact
rationals is the record read from its ports. -/
def Obligations.RecordPortsCarryTheExactRationals : Prop :=
  ∀ b : Bits, b.length = 168 → ∃ r : NavRecord, navDec b = .ok r ∧ readRecord (driveRecord r) = r

/-- NAV.DEC is injective (44_navblock_decode.md R263): two different blocks give two different records, over abstract
sequences and in the responses on the ports. -/
def Obligations.NavDecodeIsInjective : Prop :=
  (∀ (a b : Bits) (r : NavRecord), navDec a = .ok r → navDec b = .ok r → a = b) ∧
  ∀ s t : State, s.request.blk ≠ t.request.blk →
    ∃ s' t' : State, exec .navDec s = .next s' ∧ exec .navDec t = .next t' ∧ s'.response ≠ t'.response

/-- The round trip, exactly (44_navblock_decode.md R264): what NAV.DEC gives back of a record whose fields all fit. -/
def Obligations.EncodeThenDecodeRoundTrip : Prop :=
  ∀ (p : Params) (x : NavInput), AllFit x →
    ∃ (e : Encoded) (r : NavRecord), navEnc p x = .ok e ∧ navDec e.blk = .ok r ∧
      r.msgType = 1 ∧ r.repeatInd = 0 ∧ (r.mmsi : Int) = x.mmsi ∧ (r.navStatus : Int) = x.navStatus ∧
      r.rot = (if rotScale x.rateOfTurn = -128 then 128 else rotScale x.rateOfTurn) ∧
      r.sog = (if trunc (10 * x.speedOverGround) = 1022 then 1022
        else if trunc (10 * x.speedOverGround) = 1023 then 1023 else (trunc (10 * x.speedOverGround) : Rat) / 10) ∧
      r.posAcc = x.positionAccurate ∧
      r.lon = (trunc (600000 * x.longitude) : Rat) / 600000 ∧
      |x.longitude - r.lon| < 1 / 600000 ∧ |r.lon| ≤ |x.longitude| ∧
      r.lat = (trunc (600000 * x.latitude) : Rat) / 600000 ∧
      |x.latitude - r.lat| < 1 / 600000 ∧ |r.lat| ≤ |x.latitude| ∧
      r.cog = (if trunc (10 * x.courseOverGround) = 3600 then 3600 else (trunc (10 * x.courseOverGround) : Rat) / 10) ∧
      (r.hdg : Int) = x.trueHeading ∧ (r.ts : Int) = x.timestampSeconds ∧ (r.maneuver : Int) = x.maneuverIndicator ∧
      (r.spare : Int) = x.spare ∧ r.raim = x.raim ∧ (r.radio : Int) = x.radioStatus

/-- Packing the sixteen unpacked raw values at their widths restores every block (44_navblock_decode.md R265). -/
def Obligations.PackingUnpackedFieldsRestoresTheBlock : Prop :=
  ∀ (p : Params) (b : Bits), 30 ≤ p.wmax → b.length = 168 →
    ∃ u : Nat → Int,
      (∀ k, k < 16 → k ≠ 4 → k ≠ 7 → k ≠ 8 → unpackU p (fieldBits k b) = .ok (u k)) ∧
      unpackRot p (fieldBits 4 b) = .ok (u 4) ∧ unpackS p (fieldBits 7 b) = .ok (u 7) ∧
      unpackS p (fieldBits 8 b) = .ok (u 8) ∧
      ((List.range 16).map fun k => packBits (u k) (busWidth k)).flatten = b

/-! ## The host's pseudo-operations -/

/-- SENT.ENC (45_sentence_validator.md R282, R283): for every sequence whose armor and body are within the limits, the
sentence is `!`, the body, `*` and CSUM's digits of the body. The body is the bytes of 30_encoding.md R101 written out:
`AIVDM,1,1,,A,`, the payload, `,0`, the fill-bits indicator being the constant `0` whatever the length. There is exactly
one `!`, one `*` and six `,`, nothing follows the digits, and a block gives 47 bytes. -/
def Obligations.SentenceFrame : Prop :=
  ∀ (p : Params) (x : Bits), x.length ≤ p.bitsMax → 15 + (x.length + 5) / 6 ≤ p.bodyMax →
    ∃ (payload body sentence : Bytes) (r : Checksum),
      armorEnc p x = .ok payload ∧ csum p body = .ok r ∧ sentEnc p x = .ok sentence ∧
      body = [0x41#8, 0x49#8, 0x56#8, 0x44#8, 0x4D#8, 0x2C#8, 0x31#8, 0x2C#8, 0x31#8, 0x2C#8, 0x2C#8, 0x41#8, 0x2C#8] ++
        payload ++ [0x2C#8, 0x30#8] ∧
      sentence = [0x21#8] ++ body ++ [0x2A#8] ++ r.csHex ∧ r.csHex.length = 2 ∧
      sentence.count 0x21#8 = 1 ∧ sentence.count 0x2A#8 = 1 ∧ sentence.count 0x2C#8 = 6 ∧
      (x.length = 168 → payload.length = 28 ∧ body.length = 43 ∧ sentence.length = 47)

/-- SENT.DEC undoes SENT.ENC (45_sentence_validator.md R290), for every sequence within the limits. -/
def Obligations.SentenceDecodeInvertsEncode : Prop :=
  ∀ (p : Params) (x : Bits), x.length ≤ p.bitsMax → 15 + (x.length + 5) / 6 ≤ p.bodyMax →
    (sentEnc p x).andThen (sentDec p) = armorEnc p x ∧ ∃ c, armorEnc p x = .ok c

/-- The tests of SENT.DEC in their order (45_sentence_validator.md R286 to R289): reason 1 unless there is exactly one
`*`; then 2 without a leading `!`, 3 unless two bytes follow the `*`, CSUM's LengthOutOfRange for a body above
`BODY_MAX`, the checksum comparison, 4 unless the body has exactly six commas, and else the sixth field, whatever the
other fields are. -/
def Obligations.SentenceDecodeTestsInOrder : Prop :=
  ∀ p : Params,
    (∀ snt : Bytes, snt.count 0x2A#8 ≠ 1 → sentDec p snt = .fault .malformedSentence 1#8) ∧
    ∀ head tail : Bytes, 0x2A#8 ∉ head → 0x2A#8 ∉ tail →
      (head.head? ≠ some 0x21#8 → sentDec p (head ++ 0x2A#8 :: tail) = .fault .malformedSentence 2#8) ∧
      ∀ body : Bytes, head = 0x21#8 :: body →
        (tail.length ≠ 2 → sentDec p (head ++ 0x2A#8 :: tail) = .fault .malformedSentence 3#8) ∧
        (tail.length = 2 → p.bodyMax < body.length →
          sentDec p (head ++ 0x2A#8 :: tail) = .fault .lengthOutOfRange (BitVec.ofNat 8 body.length)) ∧
        (tail.length = 2 → body.length ≤ p.bodyMax →
          (tail ≠ csumHex (xorAll body) →
            sentDec p (head ++ 0x2A#8 :: tail) = .fault .checksumMismatch (xorAll body)) ∧
          (tail = csumHex (xorAll body) →
            (body.count 0x2C#8 ≠ 6 → sentDec p (head ++ 0x2A#8 :: tail) = .fault .malformedSentence 4#8) ∧
            ∀ f0 f1 f2 f3 f4 f5 f6 : Bytes, (∀ f ∈ [f0, f1, f2, f3, f4, f5, f6], 0x2C#8 ∉ f) →
              body = [0x2C#8].intercalate [f0, f1, f2, f3, f4, f5, f6] →
                sentDec p (head ++ 0x2A#8 :: tail) = .ok f5))

/-- No single-byte change of an accepted sentence is accepted (45_sentence_validator.md R291): it is a
ChecksumMismatch or a MalformedSentence. -/
def Obligations.SingleByteChangeIsNeverAccepted : Prop :=
  ∀ (p : Params) (snt payload : Bytes) (i : Nat) (c : Byte), sentDec p snt = .ok payload → i < snt.length →
    snt[i]? ≠ some c →
      ∃ (k : FaultKind) (info : Byte), sentDec p (snt.set i c) = .fault k info ∧
        (k = .checksumMismatch ∨ k = .malformedSentence)

/-- VALIDATE (45_sentence_validator.md R300): it accepts exactly the records all of whose components are in the
accepted ranges, and otherwise reports the lowest-numbered field that is not. -/
def Obligations.ValidateReportsTheLowestField : Prop :=
  ∀ r : NavRecord,
    (validate r = .ok true ↔ ∀ k, k < 16 → Accepted r k) ∧
    ∀ k, k < 16 → ¬ Accepted r k → (∀ j, j < k → Accepted r j) →
      validate r = .fault .fieldValidationFailure (BitVec.ofNat 8 k)

/-- What the checks mean on a decoded block, as raw field values (45_sentence_validator.md R301). -/
def Obligations.ValidateOnDecodedBlocks : Prop :=
  ∀ b : Bits, b.length = 168 → ∀ u : Nat → Nat, (∀ k, k < 16 → u k = valU (fieldBits k b)) →
    ∀ lon lat : Int, lon = valS (fieldBits 7 b) → lat = valS (fieldBits 8 b) →
      ∃ r : NavRecord, navDec b = .ok r ∧
        (Accepted r 0 ↔ u 0 = 1 ∨ u 0 = 2 ∨ u 0 = 3 ∨ u 0 = 5 ∨ u 0 = 18) ∧
        (Accepted r 1 ↔ u 1 = 0) ∧ (Accepted r 2 ↔ 100000 ≤ u 2 ∧ u 2 ≤ 999999999) ∧
        Accepted r 3 ∧ Accepted r 4 ∧ (Accepted r 5 ↔ u 5 ≠ 1021) ∧
        Accepted r 6 ∧ (Accepted r 7 ↔ -108000000 ≤ lon ∧ lon ≤ 108600000) ∧
        (Accepted r 8 ↔ -54000000 ≤ lat ∧ lat ≤ 54600000) ∧ (Accepted r 9 ↔ u 9 ≤ 3600) ∧
        (Accepted r 10 ↔ u 10 ≤ 359 ∨ u 10 = 511) ∧ (Accepted r 11 ↔ 1 ≤ u 11 ∧ u 11 ≤ 62) ∧
        (Accepted r 12 ↔ u 12 ≤ 2) ∧ Accepted r 13 ∧ Accepted r 14 ∧ Accepted r 15

/-- DECODE.MSG's length tests (45_sentence_validator.md R311), at the default `BITS_MAX`: a valid sentence whose
payload has more than 28 bytes ends in ARMOR.DEC with LengthOutOfRange, one of fewer than 28 symbols in
BlockLengthMismatch. -/
def Obligations.DecodeMessageLengthTests : Prop :=
  ∀ (p : Params) (snt payload : Bytes), p.bitsMax = 168 → sentDec p snt = .ok payload →
    (28 < payload.length → decodeMsg p snt = .fault .lengthOutOfRange (BitVec.ofNat 8 payload.length)) ∧
    (payload.length < 28 → (∀ c ∈ payload, c ∈ alphabet) →
      decodeMsg p snt = .fault .blockLengthMismatch (BitVec.ofNat 8 (6 * payload.length)))

/-- End to end (45_sentence_validator.md R312): for every record whose fields all fit, decoding the encoded message
gives the record NAV.DEC gives of its block, or the FieldValidationFailure of VALIDATE. -/
def Obligations.MessageRoundTrip : Prop :=
  ∀ (p : Params) (x : NavInput), CarriesBlocks p → AllFit x →
    ∃ (e : Encoded) (snt : Bytes) (r : NavRecord), navEnc p x = .ok e ∧ encodeMsg p x = .ok snt ∧
      navDec e.blk = .ok r ∧ decodeMsgRaw p snt = .ok r ∧
      ((validate r = .ok true ∧ decodeMsg p snt = .ok r) ∨
        ∃ info : Byte, validate r = .fault .fieldValidationFailure info ∧
          decodeMsg p snt = .fault .fieldValidationFailure info)

/-- A host that keeps its inputs inside the ranges of 70_reset_and_hazards.md R373 has round trips that validate. The
bounds of speed and course among them are the model's choice, log entry 20. -/
def Obligations.DutifulMessagesValidate : Prop :=
  ∀ (p : Params) (x : NavInput), CarriesBlocks p → ValidatingInput x →
    ∃ (snt : Bytes) (r : NavRecord), encodeMsg p x = .ok snt ∧ decodeMsg p snt = .ok r
end

