-- ==== Sys2Proof/Laws/Bits.lean ====
section
/-! SUPPORT. The primitives of Machine/Bits.lean: values and patterns are inverse, slices, lanes, truncation, the
integer square root. -/

namespace Sys2Proof.Machine

/-! ## Values of bit sequences -/

@[simp] theorem valU_nil : valU [] = 0 := rfl

@[simp] theorem valU_cons (b : Bool) (bs : Bits) : valU (b :: bs) = b.toNat * 2 ^ bs.length + valU bs := rfl

theorem valU_lt (b : Bits) : valU b < 2 ^ b.length := by
  induction b with
  | nil => simp
  | cons c cs ih => cases c <;> simp [pow_succ] <;> omega

theorem valU_append (a b : Bits) : valU (a ++ b) = valU a * 2 ^ b.length + valU b := by
  induction a with
  | nil => simp
  | cons c cs ih => simp [ih, pow_add]; ring

theorem valU_replicate_false (n : Nat) : valU (List.replicate n false) = 0 := by
  induction n with
  | zero => rfl
  | succ n ih => simp [List.replicate_succ, ih]

@[simp] theorem length_bitsOf (u n : Nat) : (bitsOf u n).length = n := by
  induction n with
  | zero => rfl
  | succ n ih => simp [bitsOf, ih]

/-- `bitsof` keeps the low bits. -/
@[simp] theorem valU_bitsOf (u n : Nat) : valU (bitsOf u n) = u % 2 ^ n := by
  induction n with
  | zero => simp [bitsOf, Nat.mod_one]
  | succ n ih => rw [bitsOf, valU_cons, ih, length_bitsOf, Nat.mod_pow_succ, Nat.toNat_testBit]; ring

theorem bitsOf_mod (u n : Nat) : bitsOf (u % 2 ^ n) n = bitsOf u n := by
  suffices h : ∀ m, m ≤ n → bitsOf (u % 2 ^ n) m = bitsOf u m from h n le_rfl
  intro m
  induction m with
  | zero => intro _; rfl
  | succ m ih =>
    intro hm
    have hlt : m < n := by omega
    simp [bitsOf, ih (by omega), Nat.testBit_mod_two_pow, hlt]

/-- A sequence is determined by its length and its value (00_scope.md rule R14). -/
theorem valU_injective {a b : Bits} (hlen : a.length = b.length) (hval : valU a = valU b) : a = b := by
  induction a generalizing b with
  | nil => exact (List.length_eq_zero_iff.mp hlen.symm).symm
  | cons c cs ih =>
    cases b with
    | nil => simp at hlen
    | cons d ds =>
      have hl : cs.length = ds.length := by simpa using hlen
      have h1 := valU_lt cs
      have h2 := valU_lt ds
      rw [valU_cons, valU_cons, hl] at hval
      rw [hl] at h1
      cases c <;> cases d <;> simp at hval ⊢
      · exact ih hl hval
      · omega
      · omega
      · exact ih hl hval

theorem bitsOf_valU (b : Bits) : bitsOf (valU b) b.length = b :=
  valU_injective (by simp) (by rw [valU_bitsOf, Nat.mod_eq_of_lt (valU_lt b)])

/-- The sign bit is set exactly when the unsigned value is in the upper half. -/
theorem headD_eq_decide (b : Bits) (hpos : 1 ≤ b.length) : b.headD false = decide (2 ^ (b.length - 1) ≤ valU b) := by
  cases b with
  | nil => simp at hpos
  | cons c cs =>
    have := valU_lt cs
    cases c
    · simpa using this
    · simp

/-- The two's-complement value by cases on the upper half (40_bitfield_codec.md rule R138). -/
theorem valS_eq_ite (b : Bits) (hpos : 1 ≤ b.length) :
    valS b = if 2 ^ (b.length - 1) ≤ valU b then (valU b : Int) - ((2 ^ b.length : Nat) : Int) else (valU b : Int) := by
  unfold valS
  rw [headD_eq_decide b hpos]
  split <;> simp [*]

theorem two_pow_pred_double {n : Nat} (h : 1 ≤ n) : 2 ^ n = 2 * 2 ^ (n - 1) := by
  obtain ⟨m, rfl⟩ : ∃ m, n = m + 1 := ⟨n - 1, by omega⟩
  simp [pow_succ, mul_comm]

/-- The range of a two's-complement value (40_bitfield_codec.md rule R138). -/
theorem valS_range (b : Bits) (hpos : 1 ≤ b.length) :
    -((2 ^ (b.length - 1) : Nat) : Int) ≤ valS b ∧ valS b < ((2 ^ (b.length - 1) : Nat) : Int) := by
  have h := valU_lt b
  have hd := two_pow_pred_double hpos
  rw [valS_eq_ite b hpos]
  split <;> omega

/-- Modulo 2^n the two's-complement value is the unsigned value. -/
theorem valS_emod (b : Bits) : valS b % ((2 ^ b.length : Nat) : Int) = (valU b : Int) := by
  have h := valU_lt b
  unfold valS
  cases b.headD false
  · simp only [Bool.toNat_false, mul_zero, Nat.cast_zero, sub_zero]
    exact Int.emod_eq_of_lt (by omega) (by omega)
  · simp only [Bool.toNat_true, mul_one]
    rw [Int.sub_emod_right]
    exact Int.emod_eq_of_lt (by omega) (by omega)

/-- A two's-complement value is the one number of its range that is congruent to the unsigned value. -/
theorem valS_unique {b : Bits} {v : Int} (hpos : 1 ≤ b.length) (hlo : -((2 ^ (b.length - 1) : Nat) : Int) ≤ v)
    (hhi : v < ((2 ^ (b.length - 1) : Nat) : Int)) (hmod : v % ((2 ^ b.length : Nat) : Int) = (valU b : Int)) :
    valS b = v := by
  have h1 := valS_range b hpos
  have h2 := valS_emod b
  have hd := two_pow_pred_double hpos
  have hdvd : ((2 ^ b.length : Nat) : Int) ∣ valS b - v := 
    Int.dvd_of_emod_eq_zero (Int.emod_eq_emod_iff_emod_sub_eq_zero.mp (h2.trans hmod.symm))
  obtain ⟨k, hk⟩ := hdvd
  have hp : (0 : Int) < ((2 ^ (b.length - 1) : Nat) : Int) := by positivity
  rw [hd] at hk
  push_cast at hk h1 hlo hhi hp
  have : k = 0 := by nlinarith
  subst this
  simp at hk
  omega

/-! ## Slices -/

theorem length_slice {α : Type} (s : List α) (i j : Nat) : (slice s i j).length = min (j - i) (s.length - i) := by
  simp [slice]

theorem slice_append_left {α : Type} (a b : List α) : slice (a ++ b) 0 a.length = a := by simp [slice]

theorem slice_append_right {α : Type} (a b : List α) (i j : Nat) :
    slice (a ++ b) (a.length + i) (a.length + j) = slice b i j := by
  simp [slice, Nat.add_sub_add_left]

/-! ## Lanes -/

theorem laneBus_lt (c : Bytes) : laneBus c < 256 ^ c.length := by
  induction c with
  | nil => simp [laneBus]
  | cons b bs ih =>
    have := b.isLt
    simp only [laneBus, List.length_cons, pow_succ]
    omega

@[simp] theorem length_lanes (bus n : Nat) : (lanes bus n).length = n := by simp [lanes]

theorem lane_zero (bus : Nat) : lane bus 0 = BitVec.ofNat 8 bus := by simp [lane]

theorem lane_succ (bus j : Nat) : lane bus (j + 1) = lane (bus / 256) j := by
  unfold lane
  rw [show 8 * (j + 1) = 8 + 8 * j by ring, Nat.shiftRight_add, Nat.shiftRight_eq_div_pow bus 8]

theorem lanes_succ (bus n : Nat) : lanes bus (n + 1) = BitVec.ofNat 8 bus :: lanes (bus / 256) n := by
  unfold lanes
  rw [List.range_succ_eq_map, List.map_cons, List.map_map, lane_zero]
  congr 1
  exact List.map_congr_left fun j _ => lane_succ bus j

/-- The lanes of a driven sequence are the sequence (10_state.md rule R38). -/
theorem lanes_laneBus (c : Bytes) : lanes (laneBus c) c.length = c := by
  induction c with
  | nil => rfl
  | cons b bs ih =>
    have hb := b.isLt
    have hq : laneBus (b :: bs) / 256 = laneBus bs := by simp only [laneBus]; omega
    have hl : BitVec.ofNat 8 (laneBus (b :: bs)) = b := by
      apply BitVec.eq_of_toNat_eq
      simp only [laneBus, BitVec.toNat_ofNat]
      omega
    rw [List.length_cons, lanes_succ, hq, ih, hl]

theorem lane_laneBus (cs : Bytes) (j : Nat) (h : j < cs.length) : lane (laneBus cs) j = cs[j] := by
  have hj : (lanes (laneBus cs) cs.length)[j]? = cs[j]? := by rw [lanes_laneBus cs]
  simpa [lanes, h] using hj

/-! ## Signed buses -/

theorem driveSigned_lt (width : Nat) (v : Int) : driveSigned width v < 2 ^ width := by
  have h : (0 : Int) < ((2 ^ width : Nat) : Int) := by positivity
  have h1 := Int.emod_nonneg v h.ne'
  have h2 := Int.emod_lt_of_pos v h
  unfold driveSigned
  omega

/-- A value that fits a signed port is read back as it was driven (10_state.md rule R38). -/
theorem signedBus_driveSigned {width : Nat} {v : Int} (hw : 1 ≤ width) (h : inSigned width v = true) :
    signedBus width (driveSigned width v) = v := by
  simp only [inSigned, Bool.and_eq_true, decide_eq_true_eq] at h
  have hp : (0 : Int) < ((2 ^ width : Nat) : Int) := by positivity
  have hn := Int.emod_nonneg v hp.ne'
  have hd := two_pow_pred_double hw
  apply valS_unique
  · simpa using hw
  · simp only [length_bitsOf]; omega
  · simp only [length_bitsOf]; omega
  · rw [valU_bitsOf, Nat.mod_eq_of_lt (driveSigned_lt width v), length_bitsOf]
    unfold driveSigned
    omega

/-! ## Truncation -/

/-- `trunc` is the quotient of the numerator by the denominator, rounded toward zero. -/
theorem trunc_eq_tdiv (q : Rat) : trunc q = q.num.tdiv q.den := by
  unfold trunc
  split
  · next h =>
    rw [Rat.floor_def, Int.tdiv_eq_ediv_of_nonneg (Rat.num_nonneg.mpr h)]
  · next h =>
    rw [Rat.floor_def]
    have : 0 ≤ (-q).num := by rw [Rat.num_nonneg]; linarith
    rw [← Int.tdiv_eq_ediv_of_nonneg this]
    simp [Int.neg_tdiv]

/-- The scaled truncation is `trunc` of the exact product (43_navblock_encode.md rule R207). -/
theorem truncMul_eq_trunc (k : Nat) (q : Rat) : truncMul k q = trunc (k * q) := by
  rw [trunc_eq_tdiv]
  unfold truncMul
  have hq : (k : ℚ) * q = mkRat (k * q.num) q.den := by
    rw [Rat.mkRat_eq_div]; push_cast; rw [mul_div_assoc, Rat.num_div_den]
  rw [hq]
  obtain ⟨g, hg, h1, h2⟩ := Rat.mkRat_num_den (n := k * q.num) (n' := (mkRat (k * q.num) q.den).num)
    (d' := (mkRat (k * q.num) q.den).den) (z' := Rat.den_nz _) (c := Rat.reduced _) q.den_nz rfl
  generalize mkRat (k * q.num) q.den = r at *
  rw [h1, h2]
  push_cast
  exact Int.mul_tdiv_mul_of_pos_left _ _ (by exact_mod_cast Nat.pos_of_ne_zero hg)

/-- For a nonnegative rational `trunc` is the floor (00_scope.md rule R16). -/
theorem trunc_of_nonneg {q : Rat} (h : 0 ≤ q) : (trunc q : Rat) ≤ q ∧ q < trunc q + 1 ∧ 0 ≤ trunc q := by
  unfold trunc; rw [if_pos h]
  exact ⟨Int.floor_le q, Int.lt_floor_add_one q, Int.floor_nonneg.mpr h⟩

/-- For a negative rational `trunc` is the ceiling (00_scope.md rule R16). -/
theorem trunc_of_neg {q : Rat} (h : q < 0) : q ≤ (trunc q : Rat) ∧ trunc q - 1 < q ∧ trunc q ≤ 0 := by
  unfold trunc; rw [if_neg (not_le.mpr h)]
  have a := Int.floor_le (-q); have b := Int.lt_floor_add_one (-q)
  have c := Int.floor_nonneg.mpr (show 0 ≤ -q by linarith)
  change ⌊-q⌋ ≤ -q at a
  refine ⟨?_, ?_, ?_⟩
  · push_cast; change q ≤ -((⌊-q⌋ : Int) : ℚ); linarith
  · push_cast; change -((⌊-q⌋ : Int) : ℚ) - 1 < q; linarith
  · change -⌊-q⌋ ≤ 0; linarith

@[simp] theorem truncMul_zero (k : Nat) : truncMul k 0 = 0 := by simp [truncMul]

/-! ## The integer square root -/

theorem isqrtFrom_spec (n k r : Nat) (hlo : r * r ≤ n) (hhi : n < (r + 2 ^ k) * (r + 2 ^ k)) :
    isqrtFrom n k r * isqrtFrom n k r ≤ n ∧ n < (isqrtFrom n k r + 1) * (isqrtFrom n k r + 1) := by
  induction k generalizing r with
  | zero => exact ⟨hlo, by simpa [isqrtFrom] using hhi⟩
  | succ k ih =>
    unfold isqrtFrom
    split
    · next h => exact ih _ h (by rw [show r + 2 ^ k + 2 ^ k = r + 2 ^ (k + 1) by ring]; exact hhi)
    · next h => exact ih _ hlo (by omega)

/-- `isqrt` is the largest natural whose square is at most `n` (00_scope.md rule R16). -/
theorem isqrt_spec (n : Nat) : isqrt n * isqrt n ≤ n ∧ n < (isqrt n + 1) * (isqrt n + 1) := by
  apply isqrtFrom_spec n _ 0 (by simp)
  rw [zero_add, ← pow_add]
  exact lt_of_lt_of_le Nat.lt_log2_self (Nat.pow_le_pow_right (by norm_num) (by omega))

theorem isqrt_unique {n r : Nat} (hlo : r * r ≤ n) (hhi : n < (r + 1) * (r + 1)) : isqrt n = r := by
  obtain ⟨h1, h2⟩ := isqrt_spec n
  have a : isqrt n < r + 1 := by nlinarith
  have b : r < isqrt n + 1 := by nlinarith
  omega

theorem isqrt_mono {m n : Nat} (h : m ≤ n) : isqrt m ≤ isqrt n := by
  have h1 := (isqrt_spec m).1
  have h2 := (isqrt_spec n).2
  by_contra hc
  have : isqrt n + 1 ≤ isqrt m := by omega
  nlinarith

end Sys2Proof.Machine
end

