-- ==== Sys2Proof/Laws/Decode.lean ====
section
/-! SUPPORT. The opcode table has no overlap, and the decoder reads exactly its rows (30_encoding.md rule R105). -/

namespace Sys2Proof

/-- No two rows accept the same byte. -/
theorem opcodeRows_disjoint : opcodeRows.Pairwise (fun a b => a.pattern &&& b.mask ≠ b.pattern) := by decide

/-- The decoder reads an operation from its own byte. -/
@[simp] theorem decodeCmd_cmd (i : Instr) : decodeCmd i.cmd = .ok i := by cases i <;> rfl

/-- Every byte is an operation's byte and decodes to it, or is reserved and decodes to nothing. -/
theorem decodeCmd_cases : ∀ c : Byte, (∃ i : Instr, i ∈ opcodeRows.map OpcodeRow.instr ∧ decodeCmd c = .ok i ∧ c = i.cmd) ∨
    (decodeCmd c).toOption = none ∧ (c = 0x00#8 ∨ 0x0A ≤ c.toNat) := by decide +kernel

/-- Only an operation's byte decodes to it. -/
theorem cmd_of_decodeCmd {c : Byte} {i : Instr} (h : decodeCmd c = .ok i) : c = i.cmd := by
  rcases decodeCmd_cases c with ⟨j, -, hj, hc⟩ | ⟨hn, -⟩
  · rw [h] at hj; injection hj with hj; rw [hj]; exact hc
  · simp [h, Except.toOption] at hn

/-- A byte that decodes to no operation is reserved (30_encoding.md rule R104). -/
theorem reserved_of_decodeCmd {c : Byte} {e : Reject} (h : decodeCmd c = .error e) :
    c = 0x00#8 ∨ 0x0A ≤ c.toNat := by
  rcases decodeCmd_cases c with ⟨j, -, hj, -⟩ | ⟨-, hc⟩
  · simp [h] at hj
  · exact hc

end Sys2Proof
end

