-- ==== Sys2Proof/Laws/State.lean ====
section
/-! SUPPORT. Each field after each update of State, so that no proof unfolds a record update. -/

namespace Sys2Proof.Machine

@[simp] theorem State.raise_params (s : State) (k : FaultKind) (info : Byte) : (s.raise k info).params = s.params := rfl
@[simp] theorem State.raise_pending (s : State) (k : FaultKind) (info : Byte) : (s.raise k info).pending = s.pending := rfl
@[simp] theorem State.raise_request (s : State) (k : FaultKind) (info : Byte) : (s.raise k info).request = s.request := rfl
@[simp] theorem State.raise_response (s : State) (k : FaultKind) (info : Byte) :
    (s.raise k info).response = some (faultResponse k info) := rfl

@[simp] theorem State.respond_params (s : State) (r : Result) : (s.respond r).params = s.params := rfl
@[simp] theorem State.respond_pending (s : State) (r : Result) : (s.respond r).pending = s.pending := rfl
@[simp] theorem State.respond_request (s : State) (r : Result) : (s.respond r).request = s.request := rfl
@[simp] theorem State.respond_response (s : State) (r : Result) : (s.respond r).response = some (okResponse r) := rfl

@[simp] theorem State.accept_params (s : State) (r : RequestPorts) (rest : List RequestPorts) :
    (s.accept r rest).params = s.params := rfl
@[simp] theorem State.accept_pending (s : State) (r : RequestPorts) (rest : List RequestPorts) :
    (s.accept r rest).pending = rest := rfl
@[simp] theorem State.accept_request (s : State) (r : RequestPorts) (rest : List RequestPorts) :
    (s.accept r rest).request = r := rfl
@[simp] theorem State.accept_response (s : State) (r : RequestPorts) (rest : List RequestPorts) :
    (s.accept r rest).response = s.response := rfl

@[simp] theorem State.withFetchWord_params (s : State) (n w : Nat) : (s.withFetchWord n w).params = s.params := rfl
@[simp] theorem State.withFetchWord_request (s : State) (n w : Nat) : (s.withFetchWord n w).request = s.request := rfl
@[simp] theorem State.withFetchWord_response (s : State) (n w : Nat) : (s.withFetchWord n w).response = s.response := rfl
@[simp] theorem State.withFetchWord_pending (s : State) (n w : Nat) :
    (s.withFetchWord n w).pending = { s.request with cmd := BitVec.ofNat 8 (w % 2 ^ n) } :: s.pending := rfl

@[simp] theorem State.resetOf_params (p : Params) : (State.resetOf p).params = p := rfl
@[simp] theorem State.resetOf_pending (p : Params) : (State.resetOf p).pending = [] := rfl
@[simp] theorem State.resetOf_request (p : Params) : (State.resetOf p).request = RequestPorts.zero := rfl
@[simp] theorem State.resetOf_response (p : Params) : (State.resetOf p).response = none := rfl

@[simp] theorem State.afterReset_params (s : State) : s.afterReset.params = s.params := rfl
@[simp] theorem State.afterReset_pending (s : State) : s.afterReset.pending = s.pending := rfl
@[simp] theorem State.afterReset_request (s : State) : s.afterReset.request = RequestPorts.zero := rfl
@[simp] theorem State.afterReset_response (s : State) : s.afterReset.response = none := rfl

@[simp] theorem State.reset_params : State.reset.params = Params.default := rfl
@[simp] theorem State.reset_pending : State.reset.pending = [] := rfl
@[simp] theorem State.reset_request : State.reset.request = RequestPorts.zero := rfl
@[simp] theorem State.reset_response : State.reset.response = none := rfl

end Sys2Proof.Machine
end

