-- ==== Sys2Proof/Laws/Ops.lean ====
section
/-! SUPPORT. The shared operations of Machine/Ops.lean: one lemma each for everything they can do. -/

namespace Sys2Proof.Machine

@[simp] theorem OpOutcome.map_ok {α β : Type} (f : α → β) (r : α) : (OpOutcome.ok r).map f = .ok (f r) := rfl
@[simp] theorem OpOutcome.map_fault {α β : Type} (f : α → β) (k : FaultKind) (info : Byte) :
    (OpOutcome.fault k info).map f = .fault k info := rfl
@[simp] theorem OpOutcome.andThen_ok {α β : Type} (r : α) (f : α → OpOutcome β) : (OpOutcome.ok r).andThen f = f r := rfl
@[simp] theorem OpOutcome.andThen_fault {α β : Type} (k : FaultKind) (info : Byte) (f : α → OpOutcome β) :
    (OpOutcome.fault k info).andThen f = .fault k info := rfl

@[simp] theorem require_true {α : Type} (k : FaultKind) (info : Byte) (o : OpOutcome α) : require true k info o = o := rfl
@[simp] theorem require_false {α : Type} (k : FaultKind) (info : Byte) (o : OpOutcome α) :
    require false k info o = .fault k info := rfl

/-- A guarded outcome is its rest where the condition holds and the named fault where it does not. -/
theorem require_decide {α : Type} (c : Prop) [Decidable c] (k : FaultKind) (info : Byte) (o : OpOutcome α) :
    require (decide c) k info o = if c then o else .fault k info := by
  by_cases h : c <;> simp [h]

/-- Delivery always completes, with the response of the outcome and nothing else changed (60_exceptions.md rule
R330). -/
theorem State.deliver_eq (s : State) (o : OpOutcome Result) :
    s.deliver o = .next { s with response := some (responseOf o) } := by
  cases o <;> rfl

/-- The codes of 60_exceptions.md rule R321 are not OK. -/
theorem FaultKind.status_ne_ok (k : FaultKind) : k.status ≠ 0x00#8 := by cases k <;> decide

@[simp] theorem responseOf_ok (r : Result) : responseOf (.ok r) = okResponse r := rfl
@[simp] theorem responseOf_fault (k : FaultKind) (info : Byte) : responseOf (.fault k info) = faultResponse k info := rfl

/-- A response says OK exactly when the outcome is a result. -/
theorem responseOf_status_ok (o : OpOutcome Result) : (responseOf o).status = 0x00#8 ↔ ∃ r, o = .ok r := by
  cases o with
  | ok r => simp [okResponse]
  | fault k info => simp [faultResponse, FaultKind.status_ne_ok]

end Sys2Proof.Machine
end

