-- ==== Sys2Proof/Laws/Exec.lean ====
section
/-! SUPPORT. What a step can do, said once: every operation delivers the outcome of the spec's own step function. -/

namespace Sys2Proof.Machine

/-- Within `WMAX` the limit of an instance refuses nothing (40_bitfield_codec.md rule R130). -/
theorem widthLimit_le {α : Type} (p : Params) (b : Bits) (o : OpOutcome α) (h : b.length ≤ p.wmax) :
    widthLimit p b o = o := by simp only [widthLimit, h, decide_true, require_true]

/-- Above `WMAX` the limit of an instance is WidthOutOfRange, whatever the operation. -/
theorem widthLimit_gt {α : Type} (p : Params) (b : Bits) (o : OpOutcome α) (h : p.wmax < b.length) :
    widthLimit p b o = .fault .widthOutOfRange (BitVec.ofNat 8 b.length) := by
  simp only [widthLimit, Nat.not_le.mpr h, decide_false, require_false]

/-- Within `BITS_MAX` ARMOR.ENC of an instance is ARMOR.ENC over abstract sequences (41_sixbit_armor.md rule R161). -/
theorem armorEnc_le (p : Params) (b : Bits) (h : b.length ≤ p.bitsMax) : armorEnc p b = armorEncSeq b := by
  simp only [armorEnc, h, decide_true, require_true]

/-- Within `ceil(BITS_MAX/6)` ARMOR.DEC of an instance is ARMOR.DEC over abstract sequences. -/
theorem armorDec_le (p : Params) (c : Bytes) (h : c.length ≤ p.charsMax) : armorDec p c = armorDecSeq c := by
  simp only [armorDec, h, decide_true, require_true]

/-- The block on the port has 168 bits, so NAV.DEC reads its record (44_navblock_decode.md rule R241). -/
theorem navDec_blkIn (r : RequestPorts) : navDec (blkIn r) = .ok (recordOf (blkIn r)) := by
  simp only [navDec, blkIn, length_bitsOf, decide_true, require_true]

/-- Every meaning is the delivery of the outcome of its request (10_state.md rule R30). -/
theorem exec_eq_deliver (i : Instr) (s : State) :
    exec i s = s.deliver (block s.params (readRequest s.params s.request i)) := by
  cases i
  case navDec => simp only [exec, execNavDec, block, readRequest, navDec_blkIn, OpOutcome.map_ok]
  all_goals rfl

/-- Every operation completes and changes the response only (60_exceptions.md rule R330). -/
theorem exec_eq_next (i : Instr) (s : State) :
    exec i s = .next { s with response := some (responseOf (block s.params (readRequest s.params s.request i))) } := by
  rw [exec_eq_deliver, State.deliver_eq]

/-- A step with a request pending answers it: the response is `answer`, the request stands on the ports, the rest of
the program waits. -/
theorem step_cons (s : State) (r : RequestPorts) (rest : List RequestPorts) (h : s.pending = r :: rest) :
    step s = .next { params := s.params, pending := rest, request := r, response := some (answer s.params r) } := by
  cases hd : decodeCmd r.cmd with
  | ok i => simp only [step, h, hd, answer, requestOn, exec_eq_next]; rfl
  | error e => simp only [step, h, hd, answer, requestOn]; rfl

/-- A step with nothing pending does nothing. -/
theorem step_nil (s : State) (h : s.pending = []) : step s = .next s := by unfold step; rw [h]

/-- The two cases of a step. -/
theorem step_cases (s t : State) (h : step s = .next t) :
    (s.pending = [] ∧ t = s) ∨
    ∃ r rest, s.pending = r :: rest ∧
      t = { params := s.params, pending := rest, request := r, response := some (answer s.params r) } := by
  cases hp : s.pending with
  | nil => rw [step_nil s hp] at h; exact .inl ⟨rfl, by injection h with h; exact h.symm⟩
  | cons r rest => rw [step_cons s r rest hp] at h; exact .inr ⟨r, rest, rfl, by injection h with h; exact h.symm⟩

end Sys2Proof.Machine
end

