-- ==== Sys2Proof/Laws/Layout.lean ====
section
/-! SUPPORT. The constants of Machine/Layout.lean: the offsets are the sums of the widths, the alphabet and its
inverse, the hex digits. -/

namespace Sys2Proof.Machine

/-- The offsets are the running sums of the widths, 168 at the end (30_encoding.md rules R81 and R82). -/
theorem offsets_eq_sums : ∀ k < 17, offset k = ((fields.take k).map Field.width).sum := by decide

theorem length_fields : fields.length = 16 := rfl

theorem length_fieldBits {blk : Bits} (h : blk.length = 168) (k : Nat) :
    (fieldBits k blk).length = min (offset (k + 1) - offset k) (168 - offset k) := by
  rw [fieldBits, length_slice, h]

/-- The closed form of the alphabet (30_encoding.md rule R91). -/
theorem sym_closed_form : ∀ k < 64, sym k = BitVec.ofNat 8 (if k ≤ 39 then k + 48 else k + 56) := by decide

/-- `unsym` undoes `sym` (41_sixbit_armor.md rule R170). -/
theorem unsym_sym : ∀ k < 64, unsym (sym k) = some k := by decide

/-- `sym` undoes `unsym`, and a symbol's value is below 64. -/
theorem sym_of_unsym {c : Byte} {k : Nat} (h : unsym c = some k) : k < 64 ∧ sym k = c := by
  have hc := c.isLt
  have hk : k < 64 ∧ (if k ≤ 39 then k + 48 else k + 56) = c.toNat := by
    unfold unsym at h
    split at h
    · injection h with h; subst h; exact ⟨by omega, by split <;> omega⟩
    · split at h
      · injection h with h; subst h; exact ⟨by omega, by split <;> omega⟩
      · simp at h
  refine ⟨hk.1, ?_⟩
  rw [sym_closed_form k hk.1, hk.2]
  simp

/-- `hexdigit` distinguishes the sixteen nibbles (30_encoding.md rule R95). -/
theorem hexDigit_injective : ∀ d e : BitVec 4, hexDigit d = hexDigit e → d = e := by decide

end Sys2Proof.Machine
end

