-- ==== Sys2Proof/Laws/Operands.lean ====
section
/-! SUPPORT. The operand ports: what is driven is what is read, wires above a bus are ignored. -/

namespace Sys2Proof.Machine

/-- A bus wide enough ignores nothing of a narrower sequence: the reading is the low wires (10_state.md rule R38). -/
theorem bitsOf_bus {width n : Nat} (bus : Nat) (h : n ≤ width) : bitsOf (bus % 2 ^ width) n = bitsOf bus n := by
  rw [← bitsOf_mod, Nat.mod_mod_of_dvd _ (pow_dvd_pow 2 h), bitsOf_mod]

/-- A driven sequence is read back when its bus carries it. -/
theorem bitsOf_driven {b : Bits} {width : Nat} (h : valU b < 2 ^ width) : bitsOf (valU b % 2 ^ width) b.length = b := by
  rw [Nat.mod_eq_of_lt h, bitsOf_valU]

/-- A rational its numerator port carries is read back exactly (10_state.md rule R39). -/
theorem mkRat_driven {p : Params} {den : Nat} {q : Rat} (hw : 1 ≤ p.valueW) (hden : 0 < den)
    (h : ratOnPort p den q = true) : mkRat (signedBus p.valueW (driveSigned p.valueW (numerOver den q))) den = q := by
  simp only [ratOnPort, Bool.and_eq_true, decide_eq_true_eq] at h
  rw [signedBus_driveSigned hw h.2]
  obtain ⟨m, hm⟩ := h.1
  have hd : (q.den : Int) ≠ 0 := by exact_mod_cast q.den_nz
  have hnum : numerOver den q = m * q.num := by
    unfold numerOver
    rw [hm]
    push_cast
    rw [mul_assoc, Int.mul_ediv_cancel_left _ hd]
  have hm0 : m ≠ 0 := by rintro rfl; omega
  rw [hnum, hm, Rat.mkRat_eq_div]
  push_cast
  rw [mul_comm (q.den : ℚ), mul_div_mul_left _ _ (by exact_mod_cast hm0), Rat.num_div_den]

end Sys2Proof.Machine
end

