-- ==== Sys2Proof/Laws/PerInstr.lean ====
section
/-! SUPPORT. The family DecodeEncode, one lemma per operation: the decoder gives back what the encoder wrote, and the
instruction's row of the opcode table is its own (30_encoding.md rules R103 and R105). -/

namespace Sys2Proof.Laws.DecodeEncode

/-- The instruction's bytes decode to it with the rest left over, as a word of the table too, and its row is in the
table. -/
def Statement (i : Instr) : Prop :=
  (∀ rest : Bytes, decode (encode i ++ rest) = .ok (i, rest)) ∧ decodeTableWord 8 i.cmd.toNat = some i ∧
    ⟨i.cmd, 0xFF#8, i⟩ ∈ opcodeRows

theorem pack : Statement .pack := ⟨fun _ => rfl, by decide, by decide⟩
theorem unpackU : Statement .unpackU := ⟨fun _ => rfl, by decide, by decide⟩
theorem unpackS : Statement .unpackS := ⟨fun _ => rfl, by decide, by decide⟩
theorem unpackRot : Statement .unpackRot := ⟨fun _ => rfl, by decide, by decide⟩
theorem armorEnc : Statement .armorEnc := ⟨fun _ => rfl, by decide, by decide⟩
theorem armorDec : Statement .armorDec := ⟨fun _ => rfl, by decide, by decide⟩
theorem csum : Statement .csum := ⟨fun _ => rfl, by decide, by decide⟩
theorem navEnc : Statement .navEnc := ⟨fun _ => rfl, by decide, by decide⟩
theorem navDec : Statement .navDec := ⟨fun _ => rfl, by decide, by decide⟩

end Sys2Proof.Laws.DecodeEncode
end

