-- ==== Sys2Proof/Tests/Slice0.lean ====
section
/-! SUPPORT. The model's own tests: the well-formedness smoke, decoding, the vectors of 95_test_vectors.md (each
expected result is that file's), and a witness for the hypotheses of every statement. -/

namespace Sys2Proof.Tests

open Sys2Proof.Machine

/-! ## Helpers -/

/-- An ASCII text as bytes (00_scope.md rule R12). -/
def ascii (t : String) : Bytes := t.toList.map fun c => BitVec.ofNat 8 c.toNat

/-- The default instance with a request on its ports. -/
def onPorts (r : RequestPorts) : State := { State.reset with request := r }

/-- The same under policy `wrap`. -/
def onPortsWrap (r : RequestPorts) : State :=
  { State.reset with request := r, params := { overflowPolicy := .wrap } }

/-- The ports of a request on the default instance. -/
def drive (r : Request) : RequestPorts := driveRequest Params.default r

/-- The response an operation leaves. -/
def responseOfExec (i : Instr) (s : State) : Option Response :=
  match exec i s with
  | .next t => t.response
  | _ => none

/-- Document vector 1 of 95_test_vectors.md. -/
def vector1 : NavInput :=
  { defaultInput 123456789 with longitude := -72, latitude := mkRat 494 10, timestampSeconds := 60 }

/-- Document vector 4 of 95_test_vectors.md. -/
def vector4 : NavInput :=
  { defaultInput 205448890 with
    navStatus := 0, rateOfTurn := 20, speedOverGround := 0, positionAccurate := true,
    longitude := mkRat 512376583 10000000, latitude := mkRat 44194417 10000000, courseOverGround := mkRat 63 10,
    timestampSeconds := 15, raim := true }

/-- The block of document vector 2, `0x04361F64A02000000099F61C4F66216FFF9C005678`. -/
def block2 : Bits := bitsOf 0x04361F64A02000000099F61C4F66216FFF9C005678 168

/-- The sentence of document vector 3. -/
def sentence3 : Bytes := ascii "!AIVDM,1,1,,A,13HOI:0P0000VOHLCnHQKwvL05Ip,0*23"

/-! ## Well-formedness: each check refuses an ill-formed term -/

theorem smoke_default_params_wf : Params.default.wf = true := by decide
theorem smoke_valueW_zero : ({ valueW := 0 } : Params).wf = false := by decide
theorem smoke_wmax_zero : ({ wmax := 0 } : Params).wf = false := by decide
theorem smoke_wmax_above_63 : ({ wmax := 64 } : Params).wf = false := by decide
theorem smoke_rotInW_zero : ({ rotInW := 0 } : Params).wf = false := by decide
theorem smoke_rotInW_19 : ({ rotInW := 19 } : Params).wf = false := by decide
theorem smoke_degDen_zero : ({ degDen := 0 } : Params).wf = false := by decide
theorem smoke_sogDen_zero : ({ sogDen := 0 } : Params).wf = false := by decide
theorem smoke_cogDen_zero : ({ cogDen := 0 } : Params).wf = false := by decide
theorem smoke_bitsMax_256 : ({ bitsMax := 256 } : Params).wf = false := by decide
theorem smoke_bodyMax_256 : ({ bodyMax := 256 } : Params).wf = false := by decide

theorem smoke_pack_value_too_wide : (Request.pack 2147483648 8).onPorts Params.default = false := by decide
theorem smoke_pack_width_64 : (Request.pack 0 64).onPorts Params.default = false := by decide
theorem smoke_unpack_64_bits : (Request.unpackU (zeros 64)).onPorts Params.default = false := by decide +kernel
theorem smoke_unpack_bit_above_bus :
    (Request.unpackS (true :: zeros 32)).onPorts Params.default = false := by decide +kernel
theorem smoke_unpackRot_64_bits : (Request.unpackRot (zeros 64)).onPorts Params.default = false := by decide +kernel
theorem smoke_armorEnc_256_bits : (Request.armorEnc (zeros 256)).onPorts Params.default = false := by decide +kernel
theorem smoke_armorDec_byte_above_lanes :
    (Request.armorDec (List.replicate 29 0x30#8)).onPorts Params.default = false := by decide +kernel
theorem smoke_csum_256_bytes :
    (Request.csum (List.replicate 256 0x30#8)).onPorts Params.default = false := by decide +kernel
theorem smoke_navEnc_rot_too_wide :
    (Request.navEnc { defaultInput 0 with rateOfTurn := 32768 }).onPorts Params.default = false := by decide +kernel
theorem smoke_navEnc_speed_not_tenths :
    (Request.navEnc { defaultInput 0 with speedOverGround := mkRat 1239 100 }).onPorts Params.default = false := by
  decide +kernel
theorem smoke_navDec_167_bits : (Request.navDec (zeros 167)).onPorts Params.default = false := by decide +kernel
theorem smoke_reserved_is_operation : (Request.reserved 0x09#8).onPorts Params.default = false := by decide

/-! ## Decoding: every row's byte written out from 30_encoding.md rule R103, and reserved bytes (section 2.10) -/

theorem test_decode_pack : decode [0b00000001#8] = .ok (.pack, []) := by decide
theorem test_decode_unpackU : decode [0b00000010#8] = .ok (.unpackU, []) := by decide
theorem test_decode_unpackS : decode [0b00000011#8] = .ok (.unpackS, []) := by decide
theorem test_decode_unpackRot : decode [0b00000100#8] = .ok (.unpackRot, []) := by decide
theorem test_decode_armorEnc : decode [0b00000101#8] = .ok (.armorEnc, []) := by decide
theorem test_decode_armorDec : decode [0b00000110#8] = .ok (.armorDec, []) := by decide
theorem test_decode_csum : decode [0b00000111#8] = .ok (.csum, []) := by decide
theorem test_decode_navEnc : decode [0b00001000#8] = .ok (.navEnc, []) := by decide
theorem test_decode_navDec : decode [0b00001001#8] = .ok (.navDec, []) := by decide
theorem test_decode_zero : decode [0x00#8] = .error (.reservedOp 0x00#8) := by decide
theorem test_decode_0A : decode [0x0A#8] = .error (.reservedOp 0x0A#8) := by decide
theorem test_decode_11 : decode [0x11#8] = .error (.reservedUpper 0x11#8) := by decide
theorem test_decode_nothing : decode [] = .error .truncated := by decide

/-! ## Operations: the vectors of 95_test_vectors.md sections 1 and 2 -/

/-- Section 2.1, E1. -/
theorem test_pack_minus20 : responseOfExec .pack (onPorts (drive (.pack (-20) 8))) =
    some ⟨0x00#8, 0x00#8, some (.packed 0b11101100 true false)⟩ := by decide
/-- Section 2.1, last row. -/
theorem test_pack_width33 : responseOfExec .pack (onPorts (drive (.pack 5 33))) =
    some ⟨0x11#8, 33#8, none⟩ := by decide
/-- Section 2.2, row `10000000`. -/
theorem test_unpackU_128 : responseOfExec .unpackU (onPorts (drive (.unpackU (bitsOf 0x80 8)))) =
    some ⟨0x00#8, 0x00#8, some (.value 128)⟩ := by decide
/-- Section 2.2, row `1111111111`. -/
theorem test_unpackU_1023 : responseOfExec .unpackU (onPorts (drive (.unpackU (bitsOf 0x3FF 10)))) =
    some ⟨0x00#8, 0x00#8, some (.value 1023)⟩ := by decide
/-- Section 2.2, row `10000000`. -/
theorem test_unpackS_minus128 : responseOfExec .unpackS (onPorts (drive (.unpackS (bitsOf 0x80 8)))) =
    some ⟨0x00#8, 0x00#8, some (.value (-128))⟩ := by decide
/-- Section 2.2, row "width = 0". -/
theorem test_unpackS_width0 : responseOfExec .unpackS (onPorts (drive (.unpackS []))) =
    some ⟨0x11#8, 0#8, none⟩ := by decide
/-- Section 2.2, row `10000000`. -/
theorem test_unpackRot_sentinel : responseOfExec .unpackRot (onPorts (drive (.unpackRot (bitsOf 0x80 8)))) =
    some ⟨0x00#8, 0x00#8, some (.value 128)⟩ := by decide
/-- Section 3, P3 step 8. -/
theorem test_unpackRot_width9 : responseOfExec .unpackRot (onPorts (drive (.unpackRot (bitsOf 0xEC 9)))) =
    some ⟨0x11#8, 9#8, none⟩ := by decide
/-- Section 2.3: `"100111101000"` gives ``W` ``, the seam of the two runs. -/
theorem test_armorEnc_seam : responseOfExec .armorEnc (onPorts (drive (.armorEnc (bitsOf 0b100111101000 12)))) =
    some ⟨0x00#8, 0x00#8, some (.armored 2#8 0x6057)⟩ := by decide
/-- Section 2.3: `"1111111"` gives `wP`, the pad bits at the end. -/
theorem test_armorEnc_padding : responseOfExec .armorEnc (onPorts (drive (.armorEnc (List.replicate 7 true)))) =
    some ⟨0x00#8, 0x00#8, some (.armored 2#8 0x5077)⟩ := by decide
/-- Section 2.3: `"w0"`. -/
theorem test_armorDec_w0 : responseOfExec .armorDec (onPorts (drive (.armorDec [0x77#8, 0x30#8]))) =
    some ⟨0x00#8, 0x00#8, some (.dearmored 0b111111000000 12)⟩ := by decide
/-- Section 2.3: `"1,2*"`, the first bad byte. -/
theorem test_armorDec_first_bad : responseOfExec .armorDec
    (onPorts (drive (.armorDec [0x31#8, 0x2C#8, 0x32#8, 0x2A#8]))) = some ⟨0x13#8, 1#8, none⟩ := by decide
/-- Section 2.4, `a*`. -/
theorem test_csum_a_star : responseOfExec .csum (onPorts (drive (.csum [0x61#8, 0x2A#8]))) =
    some ⟨0x00#8, 0x00#8, some (.checksum 0x4B#8 0x34#8 0x42#8)⟩ := by decide
/-- Section 1, V3. -/
theorem test_csum_vector3 : responseOfExec .csum
    (onPorts (drive (.csum (ascii "AIVDM,1,1,,A,13HOI:0P0000VOHLCnHQKwvL05Ip,0")))) =
    some ⟨0x00#8, 0x00#8, some (.checksum 0x23#8 0x32#8 0x33#8)⟩ := by decide +kernel
/-- Section 1, V1, through the ports. -/
theorem test_navEnc_vector1 : responseOfExec .navEnc (onPorts (drive (.navEnc vector1))) =
    some ⟨0x00#8, 0x00#8, some (.block 0x041D6F3456203FF6B669001C44540E10FFF8000000#168 0#16)⟩ := by decide +kernel
/-- Section 2.6, N5, with the longitude −230 of the row brought to −200, which a 32-bit numerator over 10000000 can
carry: the lowest of the fields that do not fit. -/
theorem test_navEnc_overflow : responseOfExec .navEnc (onPorts (drive (.navEnc
    { defaultInput 123456789 with
      rateOfTurn := 740, speedOverGround := 1023, longitude := -200, courseOverGround := 3600 }))) =
    some ⟨0x04#8, 4#8, none⟩ := by decide +kernel
/-- Section 1, V2 with the corrections C2 and C3. -/
theorem test_navDec_vector2 : (navDec block2).map (fun r => (r.rot, r.lon, r.cog, r.radio, r.mmsi)) =
    .ok (128, mkRat 6569 50000, mkRat 367 10, 22136, 227006760) := by decide +kernel
/-- Section 2.7, the all-ones block through the ports: course 4095/10, speed presented as 1023. -/
theorem test_navDec_ones : responseOfExec .navDec (onPorts (drive (.navDec (List.replicate 168 true)))) =
    some ⟨0x00#8, 0x00#8, some (.record ⟨63, 3, 1073741823, 15, 511#9, 10230, true, -1, -1, 4095, 511, 63, 3, 7, true,
      524287⟩)⟩ := by decide +kernel

/-- Section 2.10, 0x11, as a step of a one-request program. -/
theorem test_step_reserved : (match step { State.reset with pending := [{ RequestPorts.zero with cmd := 0x11#8 }] } with
    | .next t => t.response
    | _ => none) = some ⟨0x10#8, 0x11#8, none⟩ := by decide

/-- Section 2.5. -/
theorem test_rotScale : [20, -20, 127, 725, 726, -731, 738, 32767].map rotScale = [21, -21, 53, 127, 128, -128, 129, 857] := by
  decide +kernel
/-- Section 2.6, N7: −0.54, −20314070.64 and 1.02 truncate toward zero. -/
theorem test_truncMul : [mkRat (-9) 10000000, mkRat (-338567844) 10000000, mkRat 17 10000000].map (truncMul 600000) =
    [0, -20314070, 1] := by decide
/-- Section 2.8, V4 end to end: the sentence with checksum `2E`. -/
theorem test_encodeMsg_vector4 : encodeMsg Params.default vector4 =
    .ok (ascii "!AIVDM,1,1,,A,133sVfP5@0SbS242Qn4@?wvN2000,0*2E") := by decide +kernel
/-- Section 1, V3: DECODE.MSG validates it. -/
theorem test_decodeMsg_vector3 : decodeMsg Params.default sentence3 = navDec block2 := by decide +kernel
/-- Section 2.8: a lowercase checksum digit. -/
theorem test_sentDec_lowercase : sentDec Params.default (ascii "!AIVDM,1,1,,A,133sVfP5@0SbS242Qn4@?wvN2000,0*2e") =
    .fault .checksumMismatch 0x2E#8 := by decide +kernel
/-- Section 2.8: right checksum, six fields. -/
theorem test_sentDec_six_fields : sentDec Params.default (ascii "!AIVDM,1,1,,A,11mg=5HP?wJnJ@0LA5@>4?wp0000*3C") =
    .fault .malformedSentence 4#8 := by decide +kernel
/-- Section 2.7: the all-ones block fails VALIDATE first at field 0. -/
theorem test_validate_ones : (navDec (List.replicate 168 true)).andThen validate =
    .fault .fieldValidationFailure 0#8 := by decide +kernel
/-- 70_reset_and_hazards.md rule R370: with no fix nothing is issued. -/
theorem test_no_fix_no_request : reportFix Params.default vector1 none = none := rfl

/-! ## Witnesses: states and operands that meet the hypotheses of each statement, at the ends of each clause -/

/-- A state about to step: one request in the host's program. -/
def waiting (r : RequestPorts) : State := { State.reset with pending := [r] }

/-- The ports with only the command byte driven. -/
def command (b : Byte) : RequestPorts := { RequestPorts.zero with cmd := b }

/-- An instance of the given parameters with a request on its ports. -/
def onPortsOf (p : Params) (r : RequestPorts) : State := { State.reset with params := p, request := r }

/-- A sentence of the frame around any payload, with its right checksum. -/
def sentenceOf (payload : Bytes) : Bytes :=
  [0x21#8] ++ frameBody payload ++ [0x2A#8] ++ csumHex (xorAll (frameBody payload))

theorem witness_StepRunsDecodedOperation : (waiting (drive (.pack 5 6))).pending = drive (.pack 5 6) :: [] ∧
    decode [(drive (.pack 5 6)).cmd] = .ok (.pack, []) := by decide

theorem witness_ReservedCommandIsIllegalOperation : (waiting (command 0x0A#8)).pending = command 0x0A#8 :: [] ∧
    (command 0x00#8).cmd = 0x00#8 ∧
    (0x0A ≤ (command 0x0A#8).cmd.toNat ∧ (command 0x0F#8).cmd.toNat ≤ 0x0F) ∧
    (command 0x10#8).cmd.extractLsb 7 4 ≠ 0#4 ∧ (command 0xFF#8).cmd.extractLsb 7 4 ≠ 0#4 := by decide

theorem witness_IdleStepChangesNothing : State.reset.pending = [] := rfl

theorem witness_DecodeAndEncodeAgree : decode [0x09#8, 0xFF#8] = .ok (.navDec, [0xFF#8]) := by decide

theorem witness_PortsCarryEveryRequest : Params.default.wf = true ∧
    (Request.pack (-2147483648) 63).onPorts Params.default = true ∧
    (Request.unpackU (zeros 31 ++ List.replicate 32 true)).onPorts Params.default = true ∧
    (Request.unpackS []).onPorts Params.default = true ∧
    (Request.unpackRot (bitsOf 0x80 8)).onPorts Params.default = true ∧
    (Request.armorEnc (List.replicate 168 true)).onPorts Params.default = true ∧
    (Request.armorDec (List.replicate 28 0xFF#8)).onPorts Params.default = true ∧
    (Request.csum (List.replicate 255 0xFF#8)).onPorts Params.default = true ∧
    (Request.navEnc vector4).onPorts Params.default = true ∧
    (Request.navDec block2).onPorts Params.default = true ∧
    (Request.reserved 0x0A#8).onPorts Params.default = true ∧
    (Request.reserved 0x00#8).onPorts Params.default = true := by decide +kernel

theorem witness_SignedPortReadsTwosComplement : 1 ≤ 1 ∧ 3 % 2 ^ 1 ≥ 2 ^ (1 - 1) ∧ 2 % 2 ^ 1 < 2 ^ (1 - 1) := by decide

theorem witness_EqualRequestsHaveEqualResponses :
    (waiting (drive (.pack 5 6))).params = (waiting { drive (.pack 5 6) with blk := 1#168, bits := 7 }).params ∧
    (waiting (drive (.pack 5 6))).pending = drive (.pack 5 6) :: [] ∧
    (waiting { drive (.pack 5 6) with blk := 1#168, bits := 7 }).pending =
      { drive (.pack 5 6) with blk := 1#168, bits := 7 } :: [] ∧
    requestOn Params.default (drive (.pack 5 6)) =
      requestOn Params.default { drive (.pack 5 6) with blk := 1#168, bits := 7 } := by decide

theorem witness_ProgramIsAnsweredRequestByRequest :
    ({ State.reset with pending := [command 0x00#8, drive (.pack 5 6)] }).pending[1]? = some (drive (.pack 5 6)) := by
  decide

theorem witness_FaultsByOperation :
    responseOfExec .pack (onPorts (drive (.pack 0 0))) = some ⟨0x11#8, 0#8, none⟩ ∧
    responseOfExec .unpackU (onPorts (drive (.unpackU (zeros 33)))) = some ⟨0x11#8, 33#8, none⟩ ∧
    responseOfExec .unpackS (onPorts (drive (.unpackS (zeros 33)))) = some ⟨0x11#8, 33#8, none⟩ ∧
    responseOfExec .unpackRot (onPorts (drive (.unpackRot (zeros 7)))) = some ⟨0x11#8, 7#8, none⟩ ∧
    responseOfExec .armorEnc (onPorts (drive (.armorEnc (zeros 169)))) = some ⟨0x12#8, 169#8, none⟩ ∧
    responseOfExec .armorDec (onPorts (drive (.armorDec (List.replicate 29 0x30#8)))) = some ⟨0x12#8, 29#8, none⟩ ∧
    responseOfExec .armorDec (onPorts (drive (.armorDec [0x58#8]))) = some ⟨0x13#8, 0#8, none⟩ ∧
    responseOfExec .csum (onPortsOf { bodyMax := 0 } (drive (.csum [0x30#8]))) = some ⟨0x12#8, 1#8, none⟩ ∧
    responseOfExec .navEnc (onPorts (drive (.navEnc (defaultInput (-1))))) = some ⟨0x04#8, 2#8, none⟩ := by
  decide +kernel

theorem witness_StepKeepsResponsesWellFormed :
    Inv { waiting (drive (.pack 5 6)) with response := some ⟨0x11#8, 33#8, none⟩ } := by
  refine ⟨by decide, fun r h => ?_⟩
  obtain rfl : (⟨0x11#8, 33#8, none⟩ : Response) = r := by simpa using h
  exact .inr ⟨.inr (.inr (.inl ⟨rfl, by decide⟩)), rfl⟩

/-- A legal instance that is not the default one, and a state that meets the hypotheses together. -/
theorem witness_ParametersSurviveReset : ({ overflowPolicy := .wrap } : Params).wf = true ∧
    (waiting (drive (.pack 5 6))).pending ≠ [] ∧ Inv (waiting (drive (.pack 5 6))) :=
  ⟨by decide, by decide, by decide, fun _ h => nomatch h⟩

theorem witness_PackResult : (onPorts (drive (.pack (-1) 1))).request.width.toNat = 1 ∧
    valueIn Params.default (onPorts (drive (.pack (-1) 1))).request = -1 ∧
    (onPorts (drive (.pack (-1) 32))).request.width.toNat = Params.default.wmax ∧
    (onPorts (drive (.pack (-1) 0))).request.width.toNat = 0 ∧
    (onPorts (drive (.pack (-1) 33))).request.width.toNat = Params.default.wmax + 1 := by decide

/-- The widths at the ends of the clauses of UnpackUnsignedResult, UnpackSignedResult, UnpackRotResult and
UnpackRotOnANarrowInstance. -/
theorem witness_UnpackResults : (drive (.unpackU (bitsOf 1 1))).width.toNat = 1 ∧
    (drive (.unpackS (bitsOf 1 32))).width.toNat = Params.default.wmax ∧
    (drive (.unpackU (bitsOf 1 0))).width.toNat = 0 ∧
    (drive (.unpackS (bitsOf 1 33))).width.toNat = Params.default.wmax + 1 ∧
    ((drive (.unpackRot (bitsOf 0x80 8))).width = 8#6 ∧ 8 ≤ ({ wmax := 8 } : Params).wmax) ∧
    (drive (.unpackRot (bitsOf 0x80 9))).width ≠ 8#6 ∧ (drive (.unpackRot (bitsOf 0x80 7))).width ≠ 8#6 ∧
    ¬ 8 ≤ ({ wmax := 7 } : Params).wmax := by decide

theorem witness_PackAndUnpackAreInverse : (1 ≤ 32 ∧ 32 ≤ Params.default.wmax) ∧
    ((0 : Int) ≤ 4294967295 ∧ (4294967295 : Int) < 2 ^ 32) ∧
    (-(2 ^ (32 - 1) : Int) ≤ -2147483648 ∧ (-2147483648 : Int) < 2 ^ (32 - 1)) ∧
    ((-127 : Int) ≤ -127 ∧ (128 : Int) ≤ 128) ∧
    (1 ≤ (zeros 32).length ∧ (zeros 32).length ≤ Params.default.wmax) ∧
    (zeros 8).length = 8 := by decide

/-- The ends of the widths in OverflowIndicationsAreExact and PackIsReductionModuloWidth. -/
theorem witness_WidthsOfPack : 1 ≤ 1 ∧ 32 ≤ Params.default.wmax := by decide

/-- Lengths at the ends of the clauses: none, one, 7, 8, 9, `WMAX` and one more; and what no limit means there. -/
theorem witness_UnpackOverAbstractSequences : 1 ≤ (zeros 1).length ∧ (zeros 7).length ≠ 8 ∧ (zeros 8).length = 8 ∧
    (zeros 9).length ≠ 8 ∧ (9#8 : Byte).toNat = (zeros 9).length % 256 ∧ (zeros 32).length = Params.default.wmax ∧
    Params.default.wmax < (zeros 33).length ∧ (33#8 : Byte).toNat = (zeros 33).length % 256 ∧
    unpackUSeq (true :: zeros 32) = .ok 4294967296 ∧ unpackSSeq (true :: zeros 32) = .ok (-4294967296) := by decide

/-- Requests at the ends of the limits. -/
theorem witness_InstanceAgreesWithAbstractSequences : WithinLimits Params.default (Request.unpackU (zeros 32)) ∧
    WithinLimits { wmax := 8 } (Request.unpackRot (zeros 8)) ∧
    WithinLimits Params.default (Request.armorEnc (zeros 168)) ∧
    WithinLimits Params.default (Request.armorDec (List.replicate 28 0x30#8)) ∧
    WithinLimits Params.default (Request.csum []) := by
  refine ⟨?_, ?_, ?_, ?_, trivial⟩ <;> simp only [WithinLimits] <;> decide +kernel

theorem witness_RotExceptionIsTheOnlyDifference : 8 ≤ Params.default.wmax ∧ (bitsOf 0x7F 8).length = 8 ∧
    bitsOf 0x7F 8 ≠ [true, false, false, false, false, false, false, false] := by decide

theorem witness_ArmorEncodeResult : (drive (.armorEnc (zeros 168))).nbits.toNat = Params.default.bitsMax ∧
    (drive (.armorEnc [])).nbits.toNat = 0 ∧ (drive (.armorEnc (zeros 169))).nbits.toNat = Params.default.bitsMax + 1 ∧
    0 < (1 + 5) / 6 := by decide +kernel

theorem witness_ArmorDecodeResult :
    (drive (.armorDec [0x57#8, 0x60#8])).nchars.toNat = 2 ∧
    (∀ j, j < 2 → unsym (lane (drive (.armorDec [0x57#8, 0x60#8])).chars j) ≠ none) ∧
    (drive (.armorDec (List.replicate 28 0x30#8))).nchars.toNat = (Params.default.bitsMax + 5) / 6 ∧
    unsym (lane (drive (.armorDec [0x30#8, 0x58#8])).chars 0) ≠ none ∧
    unsym (lane (drive (.armorDec [0x30#8, 0x58#8])).chars 1) = none ∧
    (drive (.armorDec (List.replicate 29 0x30#8))).nchars.toNat = (Params.default.bitsMax + 5) / 6 + 1 := by
  decide +kernel

theorem witness_AlphabetIsABijection : sym 39 = 0x57#8 ∧ sym 40 = 0x60#8 ∧ unsym 0x77#8 = some 63 ∧
    unsym 0x30#8 = some 0 := by decide

theorem witness_ArmorIsInverse : (zeros 168).length ≤ Params.default.bitsMax ∧
    (∀ b ∈ List.replicate 28 0x77#8, unsym b ≠ none) ∧
    ((List.replicate 28 0x77#8).length ≤ Params.default.charsMax ∧
      6 * (List.replicate 28 0x77#8).length ≤ Params.default.bitsMax) ∧
    ((zeros 6).length % 6 = 0 ∧ armorEnc Params.default (zeros 6) = .ok [0x30#8]) ∧
    armorDec Params.default [0x30#8] = .ok (zeros 6) := by decide +kernel

theorem witness_ArmoredBytesCannotBreakTheFrame : armorEnc Params.default [true] = .ok [0x50#8] := by decide

theorem witness_ChecksumResult : (drive (.csum (List.replicate 255 0x30#8))).nbody.toNat = Params.default.bodyMax ∧
    (drive (.csum [])).nbody.toNat = 0 ∧
    (drive (.csum [0x30#8, 0x31#8])).nbody.toNat = ({ bodyMax := 1 } : Params).bodyMax + 1 := by decide +kernel

theorem witness_ChecksumAlgebra : List.Perm [0x61#8, 0x2A#8] [0x2A#8, 0x61#8] ∧
    csum Params.default [0x61#8] = .ok ⟨0x61#8, [0x36#8, 0x31#8]⟩ ∧
    csum Params.default [0x2A#8] = .ok ⟨0x2A#8, [0x32#8, 0x41#8]⟩ ∧
    csum Params.default ([0x61#8] ++ [0x2A#8]) = .ok ⟨0x4B#8, [0x34#8, 0x42#8]⟩ ∧
    csum Params.default ([0x61#8] ++ [0x61#8]) = .ok ⟨0x00#8, [0x30#8, 0x30#8]⟩ := by decide

theorem witness_ByteReplacementChangesChecksum : (0x61#8 : Byte) ≠ 0x62#8 ∧
    csum Params.default ([] ++ 0x61#8 :: [0x2A#8]) = .ok ⟨0x4B#8, [0x34#8, 0x42#8]⟩ ∧
    csum Params.default ([] ++ 0x62#8 :: [0x2A#8]) = .ok ⟨0x48#8, [0x34#8, 0x38#8]⟩ := by decide

/-- Vector 1 fits: the hypothesis of EncodeThenDecodeRoundTrip. -/
theorem vector1_fits : AllFit vector1 := by
  intro k hk
  interval_cases k <;> first | exact trivial | (simp only [FieldFits]; decide +kernel)

/-- The record vector 1 is read back from its ports. -/
theorem navIn_vector1 : navIn Params.default (drive (.navEnc vector1)) = vector1 := by decide +kernel

theorem witness_NavEncodeFitting :
    AllFit (navIn (onPorts (drive (.navEnc vector1))).params (onPorts (drive (.navEnc vector1))).request) := by
  have : navIn (onPorts (drive (.navEnc vector1))).params (onPorts (drive (.navEnc vector1))).request = vector1 :=
    navIn_vector1
  rw [this]; exact vector1_fits

/-- The lowest field that can overflow, and the highest. -/
theorem witness_NavEncodeReportsLowestOverflow :
    State.reset.params.overflowPolicy = .fail ∧
    (¬ FieldFits 2 (rawValue (navIn Params.default (drive (.navEnc { vector1 with mmsi := -1 }))) 2) ∧
      ∀ j, j < 2 → FieldFits j (rawValue (navIn Params.default (drive (.navEnc { vector1 with mmsi := -1 }))) j)) ∧
    (¬ FieldFits 15 (rawValue (navIn Params.default (drive (.navEnc { vector1 with radioStatus := 524288 }))) 15) ∧
      ∀ j, j < 15 →
        FieldFits j (rawValue (navIn Params.default (drive (.navEnc { vector1 with radioStatus := 524288 }))) j)) := by
  refine ⟨rfl, ⟨?_, fun j hj => ?_⟩, ?_, fun j hj => ?_⟩
  · simp only [FieldFits]; decide +kernel
  · interval_cases j <;> exact trivial
  · simp only [FieldFits]; decide +kernel
  · interval_cases j <;> first | exact trivial | (simp only [FieldFits]; decide +kernel)

/-- EncodedBlockHas168Bits and EncodedBlocksAgreeExactlyModuloWidths: two records NAV.ENC encodes. -/
theorem witness_EncodedBlocks :
    (navEnc Params.default vector1).map Encoded.blk = .ok (bitsOf 0x041D6F3456203FF6B669001C44540E10FFF8000000 168) ∧
    (navEnc Params.default (defaultInput 0)).map Encoded.ovfMask = .ok (zeros 16) := by decide +kernel

theorem witness_NavEncodeWrapping :
    (onPortsWrap (drive (.navEnc { vector1 with mmsi := -1 }))).params.overflowPolicy = .wrap := rfl

theorem witness_RotScaleIsNearest : ((20 : Int) ≠ 128 ∧ (20 : Int) ≠ -128 ∧ (20 : Int).natAbs < 250000) ∧
    ((-249999 : Int) ≠ 128 ∧ (-249999 : Int) ≠ -128 ∧ (-249999 : Int).natAbs < 250000) := by decide

theorem witness_RotAliasing : (726 ≤ (-726 : Int).natAbs ∧ (737 : Int).natAbs ≤ 737) ∧ 738 ≤ (-738 : Int).natAbs ∧
    ((-725 : Int).natAbs ≤ 725 ∧ (-725 : Int) ≠ 128 ∧ (-725 : Int) ≠ -128) := by decide

/-- NavDecodeResult, RecordPortsCarryTheExactRationals, PackingUnpackedFieldsRestoresTheBlock and the second clause of
NavDecodeIsInjective: the hypothesis on the length, met and not met, and two different blocks. -/
theorem witness_Blocks : block2.length = 168 ∧ (zeros 167).length ≠ 168 ∧ (167#8 : Byte).toNat = (zeros 167).length % 256 ∧
    30 ≤ Params.default.wmax ∧
    (onPorts (drive (.navDec block2))).request.blk ≠ (onPorts (drive (.navDec (zeros 168)))).request.blk := by
  decide +kernel

theorem witness_NavDecodeIsInjective : navDec block2 = .ok (recordOf block2) := by decide +kernel

/-- SentenceFrame and SentenceDecodeInvertsEncode: the longest sequence of the default parameters, and a `BODY_MAX` that
just admits its body. -/
theorem witness_SentenceFrame : block2.length ≤ Params.default.bitsMax ∧
    15 + (block2.length + 5) / 6 ≤ Params.default.bodyMax ∧
    15 + (block2.length + 5) / 6 = ({ bodyMax := 43 } : Params).bodyMax := by decide +kernel

theorem witness_SentenceDecodeTestsInOrder :
    ([] : Bytes).count 0x2A#8 ≠ 1 ∧ ([0x2A#8, 0x2A#8] : Bytes).count 0x2A#8 ≠ 1 ∧
    (0x2A#8 ∉ ([0x41#8] : Bytes) ∧ ([0x41#8] : Bytes).head? ≠ some 0x21#8) ∧
    ([0x30#8] : Bytes).length ≠ 2 ∧ ([0x30#8, 0x30#8, 0x30#8] : Bytes).length ≠ 2 ∧
    (0x2A#8 ∉ ([0x30#8, 0x30#8] : Bytes) ∧ ([0x30#8, 0x30#8] : Bytes).length = 2) ∧
    (({ bodyMax := 0 } : Params).bodyMax < ([0x41#8] : Bytes).length ∧
      ([0x41#8] : Bytes).length ≤ ({ bodyMax := 1 } : Params).bodyMax) ∧
    ([0x30#8, 0x30#8] : Bytes) ≠ csumHex (xorAll [0x41#8]) ∧
    (([0x34#8, 0x31#8] : Bytes) = csumHex (xorAll [0x41#8]) ∧ ([0x41#8] : Bytes).count 0x2C#8 ≠ 6) ∧
    ((∀ f ∈ [[], [], [], [], [], [0x41#8], []], (0x2C#8 : Byte) ∉ (f : Bytes)) ∧
      ([0x2C#8, 0x2C#8, 0x2C#8, 0x2C#8, 0x2C#8, 0x41#8, 0x2C#8] : Bytes) =
        [0x2C#8].intercalate [[], [], [], [], [], [0x41#8], []] ∧
      ([0x34#8, 0x31#8] : Bytes) = csumHex (xorAll [0x2C#8, 0x2C#8, 0x2C#8, 0x2C#8, 0x2C#8, 0x41#8, 0x2C#8])) := by
  decide

theorem witness_SingleByteChangeIsNeverAccepted :
    sentDec Params.default (sentenceOf [0x41#8]) = .ok [0x41#8] ∧ 0 < (sentenceOf [0x41#8]).length ∧
    (sentenceOf [0x41#8])[0]? ≠ some 0x22#8 ∧ 18 < (sentenceOf [0x41#8]).length ∧
    (sentenceOf [0x41#8])[18]? ≠ some 0x2A#8 := by decide +kernel

/-- A record outside the first range, and one outside the time range only. -/
theorem witness_ValidateReportsTheLowestField :
    ¬ Accepted (recordOf (zeros 168)) 0 ∧
    (¬ Accepted { recordOf block2 with ts := 63 } 11 ∧ ∀ j, j < 11 → Accepted { recordOf block2 with ts := 63 } j) := by
  refine ⟨?_, ?_, fun j hj => ?_⟩
  · simp only [Accepted]; decide +kernel
  · simp only [Accepted]; decide +kernel
  · interval_cases j <;> first | exact trivial | (simp only [Accepted]; decide +kernel)

theorem witness_ValidateOnDecodedBlocks : ∃ u : Nat → Nat, block2.length = 168 ∧
    ∀ k, k < 16 → u k = valU (fieldBits k block2) := ⟨_, by decide +kernel, fun _ _ => rfl⟩

theorem witness_DecodeMessageLengthTests : Params.default.bitsMax = 168 ∧
    (sentDec Params.default (sentenceOf (List.replicate 29 0x30#8)) = .ok (List.replicate 29 0x30#8) ∧
      28 < (List.replicate 29 0x30#8).length) ∧
    (sentDec Params.default (sentenceOf (List.replicate 27 0x30#8)) = .ok (List.replicate 27 0x30#8) ∧
      (List.replicate 27 0x30#8).length < 28 ∧ ∀ c ∈ List.replicate 27 0x30#8, c ∈ alphabet) := by decide +kernel

theorem witness_MessageRoundTrip : CarriesBlocks Params.default ∧ CarriesBlocks { bodyMax := 43 } ∧ AllFit vector1 :=
  ⟨⟨by decide, by decide⟩, ⟨by decide, by decide⟩, vector1_fits⟩

theorem witness_DutifulMessagesValidate : CarriesBlocks Params.default ∧ ValidatingInput vector1 := by
  refine ⟨⟨by decide, by decide⟩, ?_⟩
  dsimp only [ValidatingInput]; decide +kernel

end Sys2Proof.Tests
end

section
/-! The encoding family (30_encoding.md): the operation codes and the decoder, the alphabet, the layout of an encoded
block. -/

namespace Sys2Proof

open Laws

/-- Settles O5: each of the nine bytes is the encoding of its operation, which the decoder gives back. -/
theorem operationCodesDecode : Obligations.OperationCodesDecode :=
  ⟨DecodeEncode.pack.1 [], DecodeEncode.unpackU.1 [], DecodeEncode.unpackS.1 [], DecodeEncode.unpackRot.1 [],
    DecodeEncode.armorEnc.1 [], DecodeEncode.armorDec.1 [], DecodeEncode.csum.1 [], DecodeEncode.navEnc.1 [],
    DecodeEncode.navDec.1 []⟩

theorem toNat_le_of_upper_zero {c : Byte} (h : c.extractLsb 7 4 = 0#4) : c.toNat ≤ 0x0F := by
  have hdiv : c.toNat / 16 % 16 = 0 := by
    simpa [BitVec.extractLsb_toNat, Nat.shiftRight_eq_div_pow] using congrArg BitVec.toNat h
  omega

/-- The reserved bytes in the three groups of 30_encoding.md rule R104. -/
theorem reserved_groups_of_decodeCmd {c : Byte} {e : Reject} (h : decodeCmd c = .error e) :
    c = 0x00#8 ∨ (0x0A ≤ c.toNat ∧ c.toNat ≤ 0x0F) ∨ c.extractLsb 7 4 ≠ 0#4 := by
  by_cases hupper : c.extractLsb 7 4 = 0#4
  · exact (reserved_of_decodeCmd h).imp_right fun hge => .inl ⟨hge, toNat_le_of_upper_zero hupper⟩
  · exact .inr (.inr hupper)

theorem ne_cmd_of_decodeCmd_error {c : Byte} {e : Reject} (h : decodeCmd c = .error e) (i : Instr) : c ≠ i.cmd := by
  rintro rfl
  simp at h

theorem opcodeRows_exact : ∀ row ∈ opcodeRows, row.mask = 0xFF#8 ∧ row.pattern = row.instr.cmd := by decide

/-- Settles O6, by the two answers of the decoder. -/
theorem everyCommandIsOperationOrReserved : Obligations.EveryCommandIsOperationOrReserved := by
  refine ⟨fun c => ?_, opcodeRows_exact⟩
  cases h : decodeCmd c with
  | ok i => exact .inl ⟨i, cmd_of_decodeCmd h, rfl⟩
  | error e => exact .inr ⟨⟨e, rfl⟩, reserved_groups_of_decodeCmd h, ne_cmd_of_decodeCmd_error h⟩

end Sys2Proof

namespace Sys2Proof.Machine

/-! ## The alphabet -/

/-- The alphabet is the symbols of the values below 64, in order (30_encoding.md rule R90). -/
theorem alphabet_eq_map_sym : alphabet = (List.range 64).map sym := by decide

theorem mem_alphabet_iff (c : Byte) : c ∈ alphabet ↔ ∃ k < 64, sym k = c := by
  simp [alphabet_eq_map_sym]

/-- `unsym` is defined exactly on the symbols (30_encoding.md rule R92). -/
theorem unsym_ne_none_iff (c : Byte) : unsym c ≠ none ↔ c ∈ alphabet := by
  rw [Option.ne_none_iff_exists', mem_alphabet_iff]
  exact exists_congr fun k => ⟨sym_of_unsym, fun ⟨hk, hc⟩ => hc ▸ unsym_sym k hk⟩

/-- Settles O29: `sym` and `unsym` undo each other, and the alphabet is the range of `sym`. -/
theorem alphabetIsABijection : Obligations.AlphabetIsABijection :=
  ⟨fun k hk => ⟨sym_closed_form k hk, unsym_sym k hk⟩, unsym_ne_none_iff, fun _ _ => sym_of_unsym, rfl⟩

/-! ## The encoded block -/

@[simp] theorem length_packBits (v : Int) (w : Nat) : (packBits v w).length = w := length_bitsOf _ _

/-- PACK at a legal width (40_bitfield_codec.md rule R131). -/
theorem pack_of_legal_width {p : Params} {w : Nat} (hpos : 1 ≤ w) (hmax : w ≤ p.wmax) (v : Int) :
    pack p v w = .ok ⟨packBits v w, ovfU v w, ovfS v w⟩ := by
  simp [pack, widthOk, hpos, hmax]

/-- What NAV.ENC returns under either policy (43_navblock_encode.md rule R201). -/
theorem eq_of_navEnc_ok {p : Params} {x : NavInput} {e : Encoded} (h : navEnc p x = .ok e) :
    e = ⟨assemble (rawFields x), ovfMask (rawFields x)⟩ := by
  unfold navEnc at h
  split at h
  case h_1 => cases h
  case h_2 => exact (OpOutcome.ok.inj h).symm

/-- The model's list of raw values is the spec's f0 to f15 (43_navblock_encode.md rule R201). -/
theorem rawFields_eq_rawValue (x : NavInput) : rawFields x = (List.range 16).map (rawValue x) := by
  simp [rawFields, List.range_succ, rawValue, truncMul_eq_trunc, Bool.toInt]

theorem getElem_rawFields (x : NavInput) {k : Nat} (hk : k < (rawFields x).length) :
    (rawFields x)[k] = rawValue x k := by
  rw [List.getElem_of_eq (rawFields_eq_rawValue x), List.getElem_map, List.getElem_range]

/-- The sixteen packed fields that `assemble` concatenates. -/
def packedFields (raw : List Int) : List Bits := List.zipWith (fun fld f => packBits f fld.width) fields raw

theorem assemble_eq_flatten (raw : List Int) : assemble raw = (packedFields raw).flatten := rfl

/-- The packed fields have the widths of the layout, whatever the raw values. -/
theorem map_length_packedFields {raw : List Int} (h : raw.length = fields.length) :
    (packedFields raw).map List.length = fields.map Field.width :=
  List.ext_getElem (by simp [packedFields, h]) (by simp [packedFields])

theorem length_assemble {raw : List Int} (h : raw.length = fields.length) : (assemble raw).length = 168 := by
  rw [assemble_eq_flatten, List.length_flatten, map_length_packedFields h]
  rfl

/-- Field `k` of an assembled block is raw value `k` packed at its width (30_encoding.md rule R81). -/
theorem fieldBits_assemble {raw : List Int} (h : raw.length = fields.length) {k : Nat} (hk : k < fields.length) :
    fieldBits k (assemble raw) = packBits (raw[k]'(h ▸ hk)) fields[k].width := by
  have hoffset : ∀ j ≤ fields.length, offset j = (((packedFields raw).map List.length).take j).sum := fun j hj => by
    rw [map_length_packedFields h, ← List.map_take, offsets_eq_sums j (Nat.lt_succ_of_le hj)]
  rw [fieldBits, slice, assemble_eq_flatten, ← List.drop_take, hoffset k hk.le, hoffset (k + 1) hk,
    List.drop_take_succ_flatten_eq_getElem _ k (by simpa [packedFields, h] using hk)]
  simp [packedFields]

/-- The widths of 30_encoding.md rule R81 are those of rule R80. -/
theorem width_fields : ∀ k, (hk : k < fields.length) → fields[k].width = busWidth k := by decide

/-- Every field's width is legal where `WMAX` is 32 (40_bitfield_codec.md rule R130). -/
theorem busWidth_legal : ∀ k < 16, 1 ≤ busWidth k ∧ busWidth k ≤ 32 := by decide

/-- Settles O38: the block is the concatenation of sixteen fields of fixed widths, so its length and the place of
each slice do not depend on the raw values. -/
theorem encodedBlockHas168Bits : Obligations.EncodedBlockHas168Bits := by
  intro p x e h
  have hlen : (rawFields x).length = fields.length := rfl
  rw [eq_of_navEnc_ok h]
  refine ⟨length_assemble hlen, fun k hk => ?_⟩
  obtain ⟨hpos, hmax⟩ := busWidth_legal k hk
  rw [pack_of_legal_width hpos hmax, OpOutcome.map_ok, fieldBits_assemble hlen hk, width_fields k hk, getElem_rawFields]

end Sys2Proof.Machine
end

section
/-! The bit-field family (40_bitfield_codec.md): PACK and the UNPACK operations, their inverse laws, the overflow
indications. -/

namespace Sys2Proof.Machine

/-! ## What the operations deliver (60_exceptions.md rule R330) -/

theorem exec_pack_eq (s : State) : exec .pack s = .next { s with response := some (responseOf
    ((pack s.params (valueIn s.params s.request) s.request.width.toNat).map .packed)) } := exec_eq_next .pack s

theorem exec_unpackU_eq (s : State) : exec .unpackU s = .next { s with response := some (responseOf
    ((unpackU s.params (bitsIn s.params s.request)).map .value)) } := exec_eq_next .unpackU s

theorem exec_unpackS_eq (s : State) : exec .unpackS s = .next { s with response := some (responseOf
    ((unpackS s.params (bitsIn s.params s.request)).map .value)) } := exec_eq_next .unpackS s

theorem exec_unpackRot_eq (s : State) : exec .unpackRot s = .next { s with response := some (responseOf
    ((unpackRot s.params (bitsIn s.params s.request)).map .value)) } := exec_eq_next .unpackRot s

theorem responseOf_value (v : Int) : responseOf (.ok (.value v)) = ⟨0x00#8, 0x00#8, some (.value v)⟩ := rfl

theorem responseOf_widthOutOfRange (info : Byte) :
    responseOf (.fault .widthOutOfRange info) = ⟨0x11#8, info, none⟩ := rfl

/-! ## The outcomes, by the width check of 40_bitfield_codec.md rule R130 -/

theorem pack_of_illegal_width {p : Params} {w : Nat} (h : ¬ (1 ≤ w ∧ w ≤ p.wmax)) (v : Int) :
    pack p v w = .fault .widthOutOfRange (BitVec.ofNat 8 w) := by
  rw [pack, widthOk, ← Bool.decide_and, require_decide, if_neg h]

/-- The limit `WMAX` and the operation's own check raise the same fault, so together they are one check. -/
theorem widthLimit_require (p : Params) (b : Bits) (c : Prop) [Decidable c] (o : OpOutcome Int) :
    widthLimit p b (require (decide c) .widthOutOfRange (BitVec.ofNat 8 b.length) o) =
      if c ∧ b.length ≤ p.wmax then o else .fault .widthOutOfRange (BitVec.ofNat 8 b.length) := by
  rw [widthLimit, require_decide, require_decide, ite_and]
  by_cases hc : c <;> simp [hc]

theorem unpackU_eq (p : Params) (b : Bits) :
    unpackU p b = if 1 ≤ b.length ∧ b.length ≤ p.wmax then .ok (valU b : Int)
      else .fault .widthOutOfRange (BitVec.ofNat 8 b.length) := widthLimit_require p b _ _

theorem unpackS_eq (p : Params) (b : Bits) :
    unpackS p b = if 1 ≤ b.length ∧ b.length ≤ p.wmax then .ok (valS b)
      else .fault .widthOutOfRange (BitVec.ofNat 8 b.length) := widthLimit_require p b _ _

theorem unpackRot_eq (p : Params) (b : Bits) :
    unpackRot p b = if b.length = 8 ∧ b.length ≤ p.wmax then .ok (rotValue b)
      else .fault .widthOutOfRange (BitVec.ofNat 8 b.length) := widthLimit_require p b _ _

/-! ## The operand bits and their values -/

@[simp] theorem length_bitsIn (p : Params) (r : RequestPorts) : (bitsIn p r).length = r.width.toNat := length_bitsOf _ _

/-- The operand is the low wires of the bus (10_state.md rule R38). -/
theorem valU_bitsIn {p : Params} {r : RequestPorts} (h : r.width.toNat ≤ p.wmax) :
    valU (bitsIn p r) = r.bits % 2 ^ r.width.toNat := by
  rw [bitsIn, bitsOf_bus _ h, valU_bitsOf]

/-- The top bit of a number of `n` bits is set exactly in the upper half. -/
theorem testBit_pred_iff {u n : Nat} (hpos : 1 ≤ n) (hu : u < 2 ^ n) : u.testBit (n - 1) = true ↔ 2 ^ (n - 1) ≤ u := by
  refine ⟨Nat.ge_two_pow_of_testBit, fun hge => ?_⟩
  have hdiv : u / 2 ^ (n - 1) = 1 := by
    rw [two_pow_pred_double hpos] at hu
    exact Nat.div_eq_of_lt_le (by omega) (by omega)
  simp [Nat.testBit_eq_decide_div_mod_eq, hdiv]

/-- The two's-complement value by its sign bit (40_bitfield_codec.md rule R138). -/
theorem valS_eq_ite_testBit {b : Bits} (hpos : 1 ≤ b.length) :
    valS b = if (valU b).testBit (b.length - 1) then (valU b : Int) - 2 ^ b.length else (valU b : Int) := by
  simp only [valS_eq_ite b hpos, testBit_pred_iff hpos (valU_lt b), Nat.cast_pow, Nat.cast_ofNat]

/-- The value of the Rate-of-Turn field by ranges of the unsigned value (40_bitfield_codec.md rule R140). -/
theorem rotValue_eq_ite {b : Bits} (hlen : b.length = 8) :
    rotValue b = if valU b = 128 then 128 else if 128 < valU b then (valU b : Int) - 256 else (valU b : Int) := by
  rw [rotValue, valS_eq_ite b (by omega), hlen]
  split_ifs <;> omega

/-! ## The bits of PACK and their values -/

/-- PACK's bits hold the value modulo 2^width (40_bitfield_codec.md rule R131). -/
theorem valU_packBits (v : Int) (w : Nat) : (valU (packBits v w) : Int) = v % 2 ^ w := by
  have h : valU (packBits v w) = driveSigned w v := by
    rw [packBits, valU_bitsOf]
    exact Nat.mod_eq_of_lt (driveSigned_lt w v)
  rw [h, driveSigned, Int.toNat_of_nonneg (Int.emod_nonneg _ (by positivity))]
  push_cast
  rfl

/-- The unsigned value is restored exactly on the unsigned range (40_bitfield_codec.md rule R132). -/
theorem valU_packBits_eq_iff {v : Int} {w : Nat} : (valU (packBits v w) : Int) = v ↔ 0 ≤ v ∧ v < 2 ^ w := by
  have hp : (0 : Int) < 2 ^ w := by positivity
  rw [valU_packBits]
  refine ⟨fun h => ?_, fun ⟨hlo, hhi⟩ => Int.emod_eq_of_lt hlo hhi⟩
  rw [← h]
  exact ⟨Int.emod_nonneg v hp.ne', Int.emod_lt_of_pos v hp⟩

/-- The two's-complement value is restored exactly on the signed range (40_bitfield_codec.md rule R132). -/
theorem valS_packBits_eq_iff {v : Int} {w : Nat} (hpos : 1 ≤ w) :
    valS (packBits v w) = v ↔ -2 ^ (w - 1) ≤ v ∧ v < 2 ^ (w - 1) := by
  have hlen := length_packBits v w
  have hrange := valS_range (packBits v w) (hpos.trans_eq hlen.symm)
  have hunique := valS_unique (v := v) (hpos.trans_eq hlen.symm)
  rw [hlen, Nat.cast_pow, Nat.cast_ofNat] at hrange hunique
  refine ⟨fun h => by rwa [h] at hrange, fun ⟨hlo, hhi⟩ => hunique hlo hhi ?_⟩
  rw [valU_packBits, Nat.cast_pow, Nat.cast_ofNat]

/-- `ovf_u` of 40_bitfield_codec.md rule R131 as one decision. -/
theorem ovfU_eq_decide (v : Int) (w : Nat) : ovfU v w = decide (¬ (0 ≤ v ∧ v < 2 ^ w)) := by
  rw [decide_not, Bool.decide_and, ovfU, Nat.cast_pow, Nat.cast_ofNat]

/-- `ovf_s` of 40_bitfield_codec.md rule R131 as one decision. -/
theorem ovfS_eq_decide (v : Int) (w : Nat) : ovfS v w = decide (¬ (-2 ^ (w - 1) ≤ v ∧ v < 2 ^ (w - 1))) := by
  rw [decide_not, Bool.decide_and, ovfS, Nat.cast_pow, Nat.cast_ofNat]

/-- PACK gives the one sequence of its width whose value is congruent to the operand. -/
theorem packBits_eq_iff {v : Int} {w : Nat} {b : Bits} (hlen : b.length = w) :
    packBits v w = b ↔ v % 2 ^ w = (valU b : Int) := by
  rw [← valU_packBits]
  refine ⟨fun h => by rw [h], fun h => valU_injective (by simp [hlen]) (by exact_mod_cast h)⟩

/-- Modulo 2^8 the value of the Rate-of-Turn field is the unsigned value, the sentinel included. -/
theorem rotValue_emod {b : Bits} (hlen : b.length = 8) : rotValue b % 2 ^ 8 = (valU b : Int) := by
  have hlt := valU_lt b
  rw [hlen] at hlt
  rw [rotValue_eq_ite hlen]
  split_ifs <;> omega

/-- The Rate-of-Turn field restores its legal range (40_bitfield_codec.md rule R142, law (c)). -/
theorem rotValue_packBits {v : Int} (hlo : -127 ≤ v) (hhi : v ≤ 128) : rotValue (packBits v 8) = v := by
  have hU := valU_packBits v 8
  rw [rotValue_eq_ite (length_packBits v 8)]
  split_ifs <;> omega

/-- −128 is read back as the sentinel +128 (40_bitfield_codec.md rule R142, law (c)). -/
theorem rotValue_packBits_neg_128 : rotValue (packBits (-128) 8) = 128 := by decide

/-! ## The obligations -/

/-- Settles O18, by the width check. -/
theorem packResult : Obligations.PackResult := by
  refine ⟨rfl, ?_⟩
  rintro s w v rfl rfl
  rw [exec_pack_eq]
  refine ⟨fun ⟨hpos, hmax⟩ => ?_, fun h => ?_⟩
  · rw [pack_of_legal_width hpos hmax, OpOutcome.map_ok, ← valU_packBits, Int.toNat_natCast, ← ovfU_eq_decide,
      ← ovfS_eq_decide]
    rfl
  · rw [pack_of_illegal_width h, OpOutcome.map_fault, responseOf_widthOutOfRange]

/-- Settles O19, by the width check. -/
theorem unpackUnsignedResult : Obligations.UnpackUnsignedResult := by
  refine ⟨rfl, ?_⟩
  rintro s w rfl
  rw [exec_unpackU_eq, unpackU_eq, length_bitsIn]
  refine ⟨fun h => ?_, fun h => ?_⟩
  · rw [if_pos h, OpOutcome.map_ok, responseOf_value, valU_bitsIn h.2]
  · rw [if_neg h, OpOutcome.map_fault, responseOf_widthOutOfRange]

/-- Settles O20, by the width check. -/
theorem unpackSignedResult : Obligations.UnpackSignedResult := by
  refine ⟨rfl, ?_⟩
  rintro s w u rfl rfl
  rw [exec_unpackS_eq, unpackS_eq, length_bitsIn]
  refine ⟨fun h => ?_, fun h => ?_⟩
  · rw [if_pos h, OpOutcome.map_ok, responseOf_value, valS_eq_ite_testBit (h.1.trans_eq (length_bitsIn _ _).symm),
      valU_bitsIn h.2, length_bitsIn]
  · rw [if_neg h, OpOutcome.map_fault, responseOf_widthOutOfRange]

/-- Settles O21, by whether the width is 8. -/
theorem unpackRotResult : Obligations.UnpackRotResult := by
  refine ⟨rfl, ?_⟩
  rintro s u rfl
  rw [exec_unpackRot_eq, unpackRot_eq, length_bitsIn]
  refine ⟨fun hw hmax => ?_, fun hw => ?_⟩
  · have hwidth : s.request.width.toNat = 8 := congrArg BitVec.toNat hw
    have hU := valU_bitsIn (hwidth.trans_le hmax)
    rw [hwidth] at hU
    rw [if_pos ⟨hwidth, hwidth.trans_le hmax⟩, OpOutcome.map_ok, responseOf_value,
      rotValue_eq_ite ((length_bitsIn _ _).trans hwidth), hU]
    rfl
  · have hwidth : s.request.width.toNat ≠ 8 := fun h => hw (BitVec.eq_of_toNat_eq h)
    rw [if_neg (fun h => hwidth h.1), OpOutcome.map_fault, responseOf_widthOutOfRange]

/-- Settles O23: laws (a) to (c) because each reading restores the packed values of its range, law (d) because the
three readings are congruent to the unsigned value. -/
theorem packAndUnpackAreInverse : Obligations.PackAndUnpackAreInverse := by
  intro p
  refine ⟨fun w v hpos hmax hlo hhi => ?_, fun w v hpos hmax hlo hhi => ?_, fun hmax v hlo hhi => ?_, fun hmax => ?_,
    fun b hpos hmax => ⟨?_, ?_, fun hlen => ?_⟩⟩
  · simp only [pack_of_legal_width hpos hmax, OpOutcome.andThen_ok, unpackU_eq, length_packBits, hpos, hmax, and_self,
      if_true, valU_packBits_eq_iff.mpr ⟨hlo, hhi⟩]
  · simp only [pack_of_legal_width hpos hmax, OpOutcome.andThen_ok, unpackS_eq, length_packBits, hpos, hmax, and_self,
      if_true, (valS_packBits_eq_iff hpos).mpr ⟨hlo, hhi⟩]
  · simp only [pack_of_legal_width (Nat.succ_pos 7) hmax, OpOutcome.andThen_ok, unpackRot_eq, length_packBits, hmax,
      and_self, if_true, rotValue_packBits hlo hhi]
  · simp only [pack_of_legal_width (Nat.succ_pos 7) hmax, OpOutcome.andThen_ok, unpackRot_eq, length_packBits, hmax,
      and_self, if_true, rotValue_packBits_neg_128]
  · have hbits : packBits (valU b) b.length = b :=
      (packBits_eq_iff rfl).mpr (Int.emod_eq_of_lt (Int.natCast_nonneg _) (by exact_mod_cast valU_lt b))
    simp only [unpackU_eq, hpos, hmax, and_self, if_true, OpOutcome.andThen_ok, pack_of_legal_width hpos hmax,
      OpOutcome.map_ok, hbits]
  · have hbits : packBits (valS b) b.length = b := (packBits_eq_iff rfl).mpr (by exact_mod_cast valS_emod b)
    simp only [unpackS_eq, hpos, hmax, and_self, if_true, OpOutcome.andThen_ok, pack_of_legal_width hpos hmax,
      OpOutcome.map_ok, hbits]
  · have hbits : packBits (rotValue b) 8 = b := (packBits_eq_iff hlen).mpr (rotValue_emod hlen)
    have hmax8 : 8 ≤ p.wmax := hlen.symm.trans_le hmax
    simp only [unpackRot_eq, hlen, hmax8, and_self, if_true, OpOutcome.andThen_ok,
      pack_of_legal_width (Nat.succ_pos 7) hmax8, OpOutcome.map_ok, hbits]

/-- Settles O24: each indication is the negation of the range on which its reading restores the value. -/
theorem overflowIndicationsAreExact : Obligations.OverflowIndicationsAreExact := by
  intro p v w hpos hmax
  refine ⟨_, pack_of_legal_width hpos hmax v, ?_, ?_⟩
  · rw [ovfU_eq_decide, decide_eq_true_eq, Ne, valU_packBits_eq_iff]
  · rw [ovfS_eq_decide, decide_eq_true_eq, Ne, valS_packBits_eq_iff hpos]

/-- Settles O25: equal bits are equal residues modulo 2^width. -/
theorem packIsReductionModuloWidth : Obligations.PackIsReductionModuloWidth := by
  intro p v u w hpos hmax
  simp only [pack_of_legal_width hpos hmax, OpOutcome.map_ok, OpOutcome.ok.injEq]
  rw [packBits_eq_iff (length_packBits u w), valU_packBits, Int.emod_eq_emod_iff_emod_sub_eq_zero,
    Int.dvd_iff_emod_eq_zero]

end Sys2Proof.Machine
end

section
/-! The armor family (41_sixbit_armor.md): ARMOR.ENC and ARMOR.DEC undo each other. -/

namespace Sys2Proof.Machine

/-! ## ARMOR.ENC, six bits at a time -/

theorem padCount_eq (n : Nat) : padCount n = (6 - n % 6) % 6 := rfl

theorem padCount_six_add (n : Nat) : padCount (6 + n) = padCount n := by
  rw [padCount_eq, padCount_eq, Nat.add_mod_left]

/-- A multiple of 6 is not padded (41_sixbit_armor.md rule R162). -/
theorem append_pad_of_mod_six {x : Bits} (h : x.length % 6 = 0) : x ++ zeros (padCount x.length) = x := by
  rw [padCount_eq, h]
  exact List.append_nil x

/-- Padding fills the last group of six bits (41_sixbit_armor.md rule R162). -/
theorem length_append_pad (x : Bits) : (x ++ zeros (padCount x.length)).length = 6 * ((x.length + 5) / 6) := by
  rw [List.length_append, zeros, List.length_replicate, padCount_eq]
  omega

/-- The symbols are those of the six-bit groups of the padded sequence (41_sixbit_armor.md rule R162). -/
theorem armorChars_eq_map (x : Bits) :
    armorChars x = (List.range ((x ++ zeros (padCount x.length)).length / 6)).map fun j =>
      sym (valU (slice (x ++ zeros (padCount x.length)) (6 * j) (6 * j + 6))) := rfl

/-- Six leading bits are one symbol (41_sixbit_armor.md rule R162). -/
theorem armorChars_six_append {a : Bits} (ha : a.length = 6) (b : Bits) :
    armorChars (a ++ b) = sym (valU a) :: armorChars b := by
  have hlength : (a ++ b).length = 6 + b.length := by rw [List.length_append, ha]
  have hcount (r : Bits) : (a ++ r).length / 6 = r.length / 6 + 1 := by rw [List.length_append, ha]; omega
  have hhead (r : Bits) : slice (a ++ r) (6 * 0) (6 * 0 + 6) = a := by simpa [ha] using slice_append_left a r
  have htail (r : Bits) (j : Nat) : slice (a ++ r) (6 * (j + 1)) (6 * (j + 1) + 6) = slice r (6 * j) (6 * j + 6) := by
    have hj : 6 * (j + 1) = 6 + 6 * j := by omega
    rw [hj, Nat.add_assoc, ← slice_append_right a r, ha]
  rw [armorChars_eq_map, armorChars_eq_map, hlength, padCount_six_add, List.append_assoc, hcount,
    List.range_succ_eq_map, List.map_cons, List.map_map, hhead]
  simp only [Function.comp_def, htail]

/-- The pad bits of rule R162 are those that ARMOR.ENC adds itself. -/
theorem armorChars_append_pad (x : Bits) : armorChars (x ++ zeros (padCount x.length)) = armorChars x := by
  have hmul : (x ++ zeros (padCount x.length)).length % 6 = 0 := by rw [length_append_pad, Nat.mul_mod_right]
  rw [armorChars_eq_map, append_pad_of_mod_six hmul, ← armorChars_eq_map]

/-- ARMOR.ENC gives `ceil(n/6)` symbols (41_sixbit_armor.md rule R162). -/
@[simp] theorem length_armorChars (x : Bits) : (armorChars x).length = (x.length + 5) / 6 := by
  rw [armorChars_eq_map, List.length_map, List.length_range, length_append_pad,
    Nat.mul_div_cancel_left _ (Nat.succ_pos 5)]

/-! ## ARMOR.DEC, one symbol at a time -/

theorem OpOutcome.map_eq_ok_iff {α β : Type} {f : α → β} {o : OpOutcome α} {r : β} :
    o.map f = .ok r ↔ ∃ a, o = .ok a ∧ f a = r := by
  cases o <;> simp

@[simp] theorem dearmorFrom_nil (j : Nat) : dearmorFrom j [] = .ok [] := rfl

/-- Dearmoring succeeds when the first byte is a symbol and the rest dearmors (41_sixbit_armor.md rule R167). -/
theorem dearmorFrom_cons_eq_ok_iff {j : Nat} {c : Byte} {cs : Bytes} {x : Bits} :
    dearmorFrom j (c :: cs) = .ok x ↔
      ∃ k y, unsym c = some k ∧ dearmorFrom (j + 1) cs = .ok y ∧ bitsOf k 6 ++ y = x := by
  rw [dearmorFrom]
  cases unsym c with
  | none => simp
  | some k => simp [OpOutcome.map_eq_ok_iff]

/-- A six-bit group is the bits of its symbol (41_sixbit_armor.md rules R162 and R167). -/
theorem unsym_sym_valU {a : Bits} (ha : a.length = 6) : unsym (sym (valU a)) = some (valU a) :=
  unsym_sym _ ((valU_lt a).trans_eq (congrArg (2 ^ ·) ha))

theorem sym_valU_bitsOf {c : Byte} {k : Nat} (h : unsym c = some k) : sym (valU (bitsOf k 6)) = c := by
  obtain ⟨hk, hc⟩ := sym_of_unsym h
  rw [valU_bitsOf, Nat.mod_eq_of_lt (show k < 2 ^ 6 from hk), hc]

/-- The relation of the two operations (41_sixbit_armor.md rule R170): `x` has six bits a byte and armors to `c`. That
ARMOR.DEC gives exactly this `x` is `dearmorFrom_eq_ok_iff`. -/
def Dearmored (c : Bytes) (x : Bits) : Prop := x.length = 6 * c.length ∧ armorChars x = c

theorem dearmored_nil_iff {x : Bits} : Dearmored [] x ↔ x = [] := by
  refine ⟨fun ⟨hlen, _⟩ => List.length_eq_zero_iff.mp hlen, ?_⟩
  rintro rfl
  exact ⟨rfl, rfl⟩

/-- One more symbol is six more bits in front. -/
theorem dearmored_cons_iff {c : Byte} {cs : Bytes} {x : Bits} :
    Dearmored (c :: cs) x ↔ ∃ k y, unsym c = some k ∧ Dearmored cs y ∧ bitsOf k 6 ++ y = x := by
  constructor
  · rintro ⟨hlen, hchars⟩
    rw [List.length_cons] at hlen
    obtain ⟨a, y, rfl, ha⟩ : ∃ a y, x = a ++ y ∧ a.length = 6 :=
      ⟨x.take 6, x.drop 6, (List.take_append_drop 6 x).symm, List.length_take_of_le (by omega)⟩
    have hy : y.length = 6 * cs.length := by rw [List.length_append] at hlen; omega
    rw [armorChars_six_append ha] at hchars
    obtain ⟨rfl, hrest⟩ := List.cons.inj hchars
    exact ⟨valU a, y, unsym_sym_valU ha, ⟨hy, hrest⟩, by rw [← ha, bitsOf_valU]⟩
  · rintro ⟨k, y, hk, ⟨hlen, hchars⟩, rfl⟩
    refine ⟨?_, ?_⟩
    · rw [List.length_append, length_bitsOf, hlen, List.length_cons, Nat.mul_succ, Nat.add_comm]
    · rw [armorChars_six_append (length_bitsOf k 6), sym_valU_bitsOf hk, hchars]

/-- What dearmoring gives, from any byte index: the bits, six a byte, that armor back to the bytes. -/
theorem dearmorFrom_eq_ok_iff {j : Nat} {c : Bytes} {x : Bits} : dearmorFrom j c = .ok x ↔ Dearmored c x := by
  induction c generalizing j x with
  | nil => rw [dearmorFrom_nil, OpOutcome.ok.injEq, dearmored_nil_iff, eq_comm]
  | cons c cs ih => simp only [dearmorFrom_cons_eq_ok_iff, ih, dearmored_cons_iff]

/-- Symbols always dearmor (41_sixbit_armor.md rule R168). -/
theorem exists_dearmored {c : Bytes} (h : ∀ b ∈ c, unsym b ≠ none) : ∃ x, Dearmored c x := by
  induction c with
  | nil => exact ⟨[], rfl, rfl⟩
  | cons c cs ih =>
    obtain ⟨hc, hcs⟩ := List.forall_mem_cons.mp h
    obtain ⟨k, hk⟩ := Option.ne_none_iff_exists'.mp hc
    obtain ⟨y, hy⟩ := ih hcs
    refine ⟨bitsOf k 6 ++ y, ?_⟩
    rw [dearmored_cons_iff]
    exact ⟨k, y, hk, hy, rfl⟩

/-! ## The two operations within the length limits -/

theorem require_decide_eq_ok_iff {α : Type} {c : Prop} [Decidable c] {k : FaultKind} {info : Byte} {o : OpOutcome α}
    {r : α} : require (decide c) k info o = .ok r ↔ c ∧ o = .ok r := by
  by_cases h : c <;> simp [h]

/-- What ARMOR.DEC returns within `ceil(BITS_MAX/6)` bytes (41_sixbit_armor.md rules R161 and R167). -/
theorem armorDec_eq_ok_iff {p : Params} {c : Bytes} {x : Bits} :
    armorDec p c = .ok x ↔ c.length ≤ p.charsMax ∧ Dearmored c x := by
  rw [armorDec, require_decide_eq_ok_iff, armorDecSeq, dearmorFrom_eq_ok_iff]

/-- What ARMOR.ENC returns within `BITS_MAX` bits (41_sixbit_armor.md rules R161 and R162). -/
theorem armorEnc_eq_ok_iff {p : Params} {x : Bits} {c : Bytes} :
    armorEnc p x = .ok c ↔ x.length ≤ p.bitsMax ∧ armorChars x = c := by
  rw [armorEnc, require_decide_eq_ok_iff, armorEncSeq, OpOutcome.ok.injEq]

/-- A sequence comes back with its pad bits (41_sixbit_armor.md rule R170). -/
theorem armorDec_armorChars {p : Params} {x : Bits} (h : x.length ≤ p.bitsMax) :
    armorDec p (armorChars x) = .ok (x ++ zeros (padCount x.length)) := by
  rw [armorDec_eq_ok_iff]
  refine ⟨?_, ?_, armorChars_append_pad x⟩
  · rw [length_armorChars]
    exact Nat.div_le_div_right (Nat.add_le_add_right h 5)
  · rw [length_append_pad, length_armorChars]

/-- On multiples of 6 the symbols determine the bits (41_sixbit_armor.md rule R170). -/
theorem armorDec_of_armorEnc_ok {p : Params} {x : Bits} {c : Bytes} (hmul : x.length % 6 = 0)
    (h : armorEnc p x = .ok c) : armorDec p c = .ok x := by
  rw [armorEnc_eq_ok_iff] at h
  obtain ⟨hlen, rfl⟩ := h
  rw [armorDec_armorChars hlen, append_pad_of_mod_six hmul]

/-- Settles O30: dearmoring gives exactly the bits that armor back to the bytes, so each operation undoes the other. -/
theorem armorIsInverse : Obligations.ArmorIsInverse := by
  intro p
  refine ⟨fun x hx => ?_, fun c hsym hc hbits => ?_, fun x y c hx hy hxc hyc => ?_, fun c d x hc hd => ?_⟩
  · have henc : armorEnc p x = .ok (armorChars x) := by rw [armorEnc_eq_ok_iff]; exact ⟨hx, rfl⟩
    rw [henc, OpOutcome.andThen_ok]
    exact armorDec_armorChars hx
  · obtain ⟨x, hlen, hchars⟩ := exists_dearmored hsym
    have hdec : armorDec p c = .ok x := by rw [armorDec_eq_ok_iff]; exact ⟨hc, hlen, hchars⟩
    rw [hdec, OpOutcome.andThen_ok, armorEnc_eq_ok_iff]
    exact ⟨hlen.trans_le hbits, hchars⟩
  · exact OpOutcome.ok.inj ((armorDec_of_armorEnc_ok hx hxc).symm.trans (armorDec_of_armorEnc_ok hy hyc))
  · rw [armorDec_eq_ok_iff] at hc hd
    obtain ⟨-, -, hcx⟩ := hc
    obtain ⟨-, -, hdx⟩ := hd
    exact hcx.symm.trans hdx

end Sys2Proof.Machine
end

section
/-! The checksum family (42_checksum.md): CSUM's outcome, the algebra of XOR, its hex digits. -/

namespace Sys2Proof.Machine

/-! ## The XOR of the bytes (42_checksum.md rules R181 to R183) -/

/-- The order of the fold does not matter (42_checksum.md rule R182). -/
theorem xorAll_eq_foldr (a : Bytes) : xorAll a = a.foldr (· ^^^ ·) 0x00#8 := List.foldl_eq_foldr

theorem xorAll_nil : xorAll [] = 0x00#8 := rfl

theorem xorAll_cons (c : Byte) (a : Bytes) : xorAll (c :: a) = c ^^^ xorAll a := by
  rw [xorAll_eq_foldr, xorAll_eq_foldr, List.foldr_cons]

theorem xorAll_append (a b : Bytes) : xorAll (a ++ b) = xorAll a ^^^ xorAll b := by
  induction a with
  | nil => rw [List.nil_append, xorAll_nil, BitVec.zero_xor]
  | cons c a ih => rw [List.cons_append, xorAll_cons, xorAll_cons, ih, BitVec.xor_assoc]

/-- One byte of a body is determined by the checksum and the other bytes (42_checksum.md rule R185). -/
theorem xorAll_replace_iff (a b : Bytes) (x y : Byte) : xorAll (a ++ x :: b) = xorAll (a ++ y :: b) ↔ x = y := by
  rw [xorAll_append, xorAll_append, xorAll_cons, xorAll_cons, BitVec.xor_right_inj, BitVec.xor_left_inj]

/-! ## The two digits (42_checksum.md rule R181) -/

theorem toNat_high_half (c : Byte) : (c.extractLsb 7 4).toNat = c.toNat / 16 := by
  rw [BitVec.extractLsb_toNat, Nat.shiftRight_eq_div_pow]
  exact Nat.mod_eq_of_lt (Nat.div_lt_of_lt_mul c.isLt)

theorem toNat_low_half (c : Byte) : (c.extractLsb 3 0).toNat = c.toNat % 16 := by
  rw [BitVec.extractLsb_toNat, Nat.shiftRight_zero]

/-- The digits determine the checksum. -/
theorem csumHex_injective {c d : Byte} (h : csumHex c = csumHex d) : c = d := by
  rw [csumHex, csumHex, List.cons.injEq, List.cons.injEq] at h
  obtain ⟨hhigh, hlow, -⟩ := h
  have hdiv : c.toNat / 16 = d.toNat / 16 := by
    rw [← toNat_high_half, ← toNat_high_half, hexDigit_injective _ _ hhigh]
  have hmod : c.toNat % 16 = d.toNat % 16 := by
    rw [← toNat_low_half, ← toNat_low_half, hexDigit_injective _ _ hlow]
  apply BitVec.eq_of_toNat_eq
  rw [← Nat.div_add_mod c.toNat 16, hdiv, hmod, Nat.div_add_mod]

/-- The closed form of `hexdigit` (30_encoding.md rule R95). -/
theorem hexDigit_eq_ofNat : ∀ d : BitVec 4,
    hexDigit d = BitVec.ofNat 8 (if d.toNat < 10 then 0x30 + d.toNat else 0x37 + d.toNat) := by decide

/-! ## CSUM -/

/-- The outcome of CSUM, by the check of its length (42_checksum.md rule R181). -/
theorem csum_eq (p : Params) (a : Bytes) :
    csum p a = if a.length ≤ p.bodyMax then .ok ⟨xorAll a, csumHex (xorAll a)⟩
      else .fault .lengthOutOfRange (BitVec.ofNat 8 a.length) :=
  require_decide _ _ _ _

/-- The result of CSUM where it succeeds (42_checksum.md rule R181). -/
theorem eq_of_csum_ok {p : Params} {a : Bytes} {r : Checksum} (h : csum p a = .ok r) :
    r = ⟨xorAll a, csumHex (xorAll a)⟩ := by
  rw [csum, require_decide_eq_ok_iff, OpOutcome.ok.injEq] at h
  obtain ⟨-, hr⟩ := h
  exact hr.symm

/-- What CSUM delivers (60_exceptions.md rule R330). -/
theorem exec_csum_eq (s : State) : exec .csum s = .next { s with response := some (responseOf
    ((csum s.params (bodyIn s.request)).map .checksum)) } := exec_eq_next .csum s

/-- Settles O32, by the length check. -/
theorem checksumResult : Obligations.ChecksumResult := by
  refine ⟨rfl, ?_⟩
  rintro s n rfl
  rw [exec_csum_eq, csum_eq, bodyIn, length_lanes]
  refine ⟨fun h cs hcs => ?_, fun h => ?_⟩
  · have hxor : xorAll (lanes s.request.body s.request.nbody.toNat) = cs := (xorAll_eq_foldr _).trans hcs.symm
    rw [if_pos h, hxor, ← toNat_high_half, ← toNat_low_half, ← hexDigit_eq_ofNat, ← hexDigit_eq_ofNat]
    rfl
  · rw [if_neg h]
    rfl

/-- Settles O33: XOR is associative, commutative and its own inverse. -/
theorem checksumAlgebra : Obligations.ChecksumAlgebra := by
  intro p
  refine ⟨fun a b ra rb rab ha hb hab => ?_, fun a b h => ?_, fun a r h => ?_, fun a ra r ha h => ?_⟩
  · rw [eq_of_csum_ok ha, eq_of_csum_ok hb, eq_of_csum_ok hab, xorAll_append]
  · have hxor : xorAll a = xorAll b := h.foldl_op_eq
    rw [csum_eq, csum_eq, h.length_eq, hxor]
  · rw [eq_of_csum_ok h, xorAll_append, BitVec.xor_self]
  · rw [eq_of_csum_ok h, eq_of_csum_ok ha, xorAll_append, xorAll_cons, xorAll_nil, BitVec.xor_zero, BitVec.xor_self]

/-- Settles O34: the checksum determines the byte replaced, and the digits determine the checksum. -/
theorem byteReplacementChangesChecksum : Obligations.ByteReplacementChangesChecksum := by
  intro p a b x y r q hxy hr hq
  have hne : xorAll (a ++ x :: b) ≠ xorAll (a ++ y :: b) := mt (xorAll_replace_iff a b x y).mp hxy
  rw [eq_of_csum_ok hr, eq_of_csum_ok hq]
  exact ⟨hne, mt csumHex_injective hne⟩

end Sys2Proof.Machine
end

section
/-! The NAV.DEC family (44_navblock_decode.md): the fields of a block and its bus slices, the result ports of NAV.DEC,
injectivity, the round trip with NAV.ENC. -/

namespace Sys2Proof.Machine

/-! A pause, which states nothing. In one text Lean elaborates proofs in parallel, and each test above holds a thread until
the declarations before it are checked; begun together with them, the proofs below overrun the memory the check allows. -/

example : True := by
  sleep 6000
  trivial

/-! ## The sixteen fields of a block (30_encoding.md rules R80 and R81) -/

/-- The sort of field `k`, the last column of 30_encoding.md rule R80. -/
def fieldSort (k : Nat) : FieldSort := (fields.getD k ⟨0, .unsigned⟩).sort

theorem getElem_fields : ∀ k, (hk : k < fields.length) → fields[k] = ⟨busWidth k, fieldSort k⟩ := by decide

/-- A field begins where the one before it ends, and the bus slice is what stands below (30_encoding.md rule R81). -/
theorem offset_succ : ∀ k < 16, offset (k + 1) = offset k + busWidth k := by decide

theorem offset_add_busLow : ∀ k < 16, offset k + busWidth k + busLow k = 168 := by decide

/-- The width of the Rate of Turn is 8, and no signed field is empty (30_encoding.md rule R80). -/
theorem busWidth_of_sort : ∀ k < 16, 1 ≤ busWidth k ∧ (fieldSort k = .rot → busWidth k = 8) := by decide

theorem fieldBits_eq_take {k : Nat} (hk : k < 16) (b : Bits) :
    fieldBits k b = (b.drop (offset k)).take (busWidth k) := by
  have hslice : fieldBits k b = (b.drop (offset k)).take (offset (k + 1) - offset k) := rfl
  rw [hslice, offset_succ k hk, Nat.add_sub_cancel_left]

theorem length_fieldBits_eq_busWidth {b : Bits} (hlen : b.length = 168) {k : Nat} (hk : k < 16) :
    (fieldBits k b).length = busWidth k := by
  have hsum := offset_add_busLow k hk
  rw [fieldBits_eq_take hk, List.length_take, List.length_drop, hlen]
  omega

theorem flatten_map_fieldBits (b : Bits) :
    ∀ n ≤ 16, ((List.range n).map fun k => fieldBits k b).flatten = b.take (offset n) := by
  intro n hn
  induction n with
  | zero => rfl
  | succ n ih =>
    rw [List.range_succ, List.map_append, List.flatten_append, ih (by omega), offset_succ n hn, List.take_add,
      ← fieldBits_eq_take hn, List.map_singleton, List.flatten_singleton]

/-- A block is the concatenation of its sixteen fields (30_encoding.md rule R82). -/
theorem flatten_fieldBits {b : Bits} (hlen : b.length = 168) :
    ((List.range 16).map fun k => fieldBits k b).flatten = b := by
  rw [flatten_map_fieldBits b 16 le_rfl]
  exact List.take_of_length_le hlen.le

theorem eq_of_fieldBits_eq {a b : Bits} (ha : a.length = 168) (hb : b.length = 168)
    (h : ∀ k < 16, fieldBits k a = fieldBits k b) : a = b := by
  rw [← flatten_fieldBits ha, ← flatten_fieldBits hb]
  exact congrArg List.flatten (List.map_congr_left fun k hk => h k (List.mem_range.mp hk))

/-! ## Reading a field by its sort -/

/-- The UNPACK operation of a sort: UNPACK.U, UNPACK.S or UNPACK.ROT (30_encoding.md rule R80). -/
def FieldSort.read : FieldSort → Bits → Int
  | .unsigned, b => valU b
  | .signed, b => valS b
  | .rot, b => rotValue b

theorem read_unsigned (b : Bits) : FieldSort.unsigned.read b = valU b := rfl
theorem read_signed (b : Bits) : FieldSort.signed.read b = valS b := rfl
theorem read_rot (b : Bits) : FieldSort.rot.read b = rotValue b := rfl

/-- The raw value NAV.DEC unpacks from field `k`, the `s_k` of 44_navblock_decode.md rule R241 read by its sort. -/
def fieldValue (b : Bits) (k : Nat) : Int := (fieldSort k).read (fieldBits k b)

theorem fieldValue_of_sort {k : Nat} {sort : FieldSort} (h : fieldSort k = sort) (b : Bits) :
    fieldValue b k = sort.read (fieldBits k b) := h ▸ rfl

/-- Packing what was unpacked restores the bits, whatever the sort (40_bitfield_codec.md rule R142, law (d)). -/
theorem packBits_read (sort : FieldSort) {b : Bits} (hrot : sort = .rot → b.length = 8) :
    packBits (sort.read b) b.length = b := by
  rw [packBits_eq_iff rfl]
  cases sort with
  | unsigned =>
    rw [read_unsigned]
    exact Int.emod_eq_of_lt (Int.natCast_nonneg _) (by exact_mod_cast valU_lt b)
  | signed => exact_mod_cast valS_emod b
  | rot => rw [hrot rfl]; exact rotValue_emod (hrot rfl)

theorem packBits_fieldValue {b : Bits} (hlen : b.length = 168) {k : Nat} (hk : k < 16) :
    packBits (fieldValue b k) (busWidth k) = fieldBits k b := by
  have hwidth := length_fieldBits_eq_busWidth hlen hk
  rw [← hwidth]
  exact packBits_read _ fun hrot => hwidth.trans ((busWidth_of_sort k hk).2 hrot)

theorem fits_unsigned_iff {w : Nat} {f : Int} : Field.fits ⟨w, .unsigned⟩ f = true ↔ 0 ≤ f ∧ f < 2 ^ w := by
  have hfits : Field.fits ⟨w, .unsigned⟩ f = !ovfU f w := rfl
  rw [hfits, ovfU_eq_decide, decide_not, Bool.not_not, decide_eq_true_eq]

theorem fits_signed_iff {w : Nat} {f : Int} :
    Field.fits ⟨w, .signed⟩ f = true ↔ -2 ^ (w - 1) ≤ f ∧ f < 2 ^ (w - 1) := by
  have hfits : Field.fits ⟨w, .signed⟩ f = !ovfS f w := rfl
  rw [hfits, ovfS_eq_decide, decide_not, Bool.not_not, decide_eq_true_eq]

/-- The Rate of Turn also admits the sentinel 128 (43_navblock_encode.md rule R203). -/
theorem fits_rot_iff {w : Nat} {f : Int} :
    Field.fits ⟨w, .rot⟩ f = true ↔ (-2 ^ (w - 1) ≤ f ∧ f < 2 ^ (w - 1)) ∨ f = 128 := by
  have hfits : Field.fits ⟨w, .rot⟩ f = (!ovfS f w || decide (f = 128)) := rfl
  rw [hfits, ovfS_eq_decide, decide_not, Bool.not_not, Bool.or_eq_true, decide_eq_true_eq, decide_eq_true_eq]

theorem fits_unsigned_iff_of_pred_eq {w : Nat} {m f : Int} (hm : 2 ^ w = m + 1) :
    Field.fits ⟨w, .unsigned⟩ f = true ↔ 0 ≤ f ∧ f ≤ m := by
  rw [fits_unsigned_iff, hm, Int.lt_add_one_iff]

/-- Unpacking what was packed gives a fitting value back, but −128 in the Rate-of-Turn field as +128
(40_bitfield_codec.md rule R142, laws (a) to (c)). -/
theorem read_packBits {fld : Field} (hpos : 1 ≤ fld.width) (hrot : fld.sort = .rot → fld.width = 8) {f : Int}
    (hfits : fld.fits f = true) :
    fld.sort.read (packBits f fld.width) = if fld.sort = .rot ∧ f = -128 then 128 else f := by
  obtain ⟨width, sort⟩ := fld
  cases sort with
  | unsigned =>
    rw [if_neg (fun h => FieldSort.noConfusion h.1)]
    exact valU_packBits_eq_iff.mpr (fits_unsigned_iff.mp hfits)
  | signed =>
    rw [if_neg (fun h => FieldSort.noConfusion h.1)]
    exact (valS_packBits_eq_iff hpos).mpr (fits_signed_iff.mp hfits)
  | rot =>
    obtain rfl : width = 8 := hrot rfl
    rw [fits_rot_iff] at hfits
    by_cases hneg : f = -128
    · rw [hneg]
      exact rotValue_packBits_neg_128
    · rw [if_neg (fun h => hneg h.2)]
      exact rotValue_packBits (by omega) (by omega)

/-! ## Packing the unpacked fields (44_navblock_decode.md rule R265) -/

theorem unsigned_of_ne : ∀ k < 16, k ≠ 4 → k ≠ 7 → k ≠ 8 → fieldSort k = .unsigned := by decide

theorem busWidth_le_30 : ∀ k < 16, busWidth k ≤ 30 := by decide

/-- Settles O48: the raw value of each field packs to its bits, and the sixteen fields are the block. -/
theorem packingUnpackedFieldsRestoresTheBlock : Obligations.PackingUnpackedFieldsRestoresTheBlock := by
  intro p b hmax hlen
  have hlegal (k : Nat) (hk : k < 16) : 1 ≤ (fieldBits k b).length ∧ (fieldBits k b).length ≤ p.wmax := by
    rw [length_fieldBits_eq_busWidth hlen hk]
    exact ⟨(busWidth_legal k hk).1, (busWidth_le_30 k hk).trans hmax⟩
  have hrot : (fieldBits 4 b).length = 8 := length_fieldBits_eq_busWidth hlen (by decide)
  refine ⟨fieldValue b, fun k hk h4 h7 h8 => ?_, ?_, ?_, ?_, ?_⟩
  · rw [unpackU_eq, if_pos (hlegal k hk), fieldValue_of_sort (unsigned_of_ne k hk h4 h7 h8), read_unsigned]
  · rw [unpackRot_eq, if_pos ⟨hrot, (hlegal 4 (by decide)).2⟩, fieldValue_of_sort (sort := .rot) rfl, read_rot]
  · rw [unpackS_eq, if_pos (hlegal 7 (by decide)), fieldValue_of_sort (sort := .signed) rfl, read_signed]
  · rw [unpackS_eq, if_pos (hlegal 8 (by decide)), fieldValue_of_sort (sort := .signed) rfl, read_signed]
  · conv_rhs => rw [← flatten_fieldBits hlen]
    exact congrArg List.flatten (List.map_congr_left fun k hk => packBits_fieldValue hlen (List.mem_range.mp hk))

/-! ## The fields on the bus (30_encoding.md rule R81) -/

theorem bitsOf_succ (u n : Nat) : bitsOf u (n + 1) = u.testBit n :: bitsOf u n := rfl

theorem drop_bitsOf (u m n : Nat) : (bitsOf u (m + n)).drop m = bitsOf u n := by
  induction m with
  | zero => rw [Nat.zero_add, List.drop_zero]
  | succ m ih => rw [Nat.succ_add, bitsOf_succ, List.drop_succ_cons, ih]

theorem take_bitsOf (u m n : Nat) : (bitsOf u (m + n)).take m = bitsOf (u >>> n) m := by
  induction m with
  | zero => rfl
  | succ m ih =>
    rw [Nat.succ_add, bitsOf_succ, List.take_succ_cons, ih, bitsOf_succ, Nat.testBit_shiftRight, Nat.add_comm n m]

/-- Field `k` of the block on a bus is its bus slice (30_encoding.md rule R81). -/
theorem fieldBits_bus (b : Block) {k low width : Nat} (hk : k < 16) (hlow : busLow k = low) (hwidth : busWidth k = width) :
    fieldBits k (bitsOf b.toNat 168) = bitsOf (b.extractLsb' low width).toNat width := by
  have hsplit : bitsOf b.toNat 168 = bitsOf b.toNat (offset k + (width + low)) := by
    rw [← hlow, ← hwidth, ← Nat.add_assoc, offset_add_busLow k hk]
  rw [fieldBits_eq_take hk, hsplit, drop_bitsOf, hwidth, take_bitsOf, BitVec.extractLsb'_toNat, bitsOf_mod]

theorem valU_bus {w : Nat} (x : BitVec w) : valU (bitsOf x.toNat w) = x.toNat := by
  rw [valU_bitsOf, Nat.mod_eq_of_lt x.isLt]

theorem valS_bus {w : Nat} (hpos : 1 ≤ w) (x : BitVec w) : valS (bitsOf x.toNat w) = x.toInt := by
  have hlen : (bitsOf x.toNat w).length = w := length_bitsOf _ _
  have hdouble := two_pow_pred_double hpos
  rw [valS_eq_ite _ (hpos.trans_eq hlen.symm), hlen, valU_bus, BitVec.toInt_eq_toNat_cond]
  split_ifs <;> omega

/-- The unsigned value of field `k` on a port of its width is the bus slice. -/
theorem ofNat_valU_fieldBits_bus (b : Block) {k low width : Nat} (hk : k < 16) (hlow : busLow k = low)
    (hwidth : busWidth k = width) :
    BitVec.ofNat width (valU (fieldBits k (bitsOf b.toNat 168))) = b.extractLsb' low width := by
  rw [fieldBits_bus b hk hlow hwidth, valU_bus, BitVec.ofNat_toNat, BitVec.setWidth_eq]

/-- A one-bit field is 1 exactly when its wire is set. -/
theorem decide_valU_bit (b : Block) (i : Nat) :
    decide (valU (bitsOf (b.extractLsb' i 1).toNat 1) = 1) = b.getLsbD i := by
  rw [valU_bus, BitVec.extractLsb'_toNat, Nat.shiftRight_eq_div_pow, pow_one]
  exact Nat.testBit_eq_decide_div_mod_eq.symm

/-! ## The presentations of NAV.DEC on its ports (10_state.md rule R41) -/

/-- The `rot` port of a Rate-of-Turn field: +128 for the pattern `10000000` (44_navblock_decode.md rule R241). -/
def rotPort (x : BitVec 8) : BitVec 9 := if x = 0x80#8 then 128#9 else x.signExtend 9

/-- The `sog` port of a speed field, a numerator over 10: raw 1022 and 1023 are presented as integers
(44_navblock_decode.md rule R244). -/
def sogPort (x : BitVec 10) : BitVec 14 :=
  if x = 1022#10 then 10220#14 else if x = 1023#10 then 10230#14 else x.setWidth 14

/-- The `cog` port of a course field, a numerator over 10: raw 3600 is presented as an integer. -/
def cogPort (x : BitVec 12) : BitVec 16 := if x = 3600#12 then 36000#16 else x.setWidth 16

theorem ofInt_rotValue_bus (x : BitVec 8) : BitVec.ofInt 9 (rotValue (bitsOf x.toNat 8)) = rotPort x := by
  have hvalue : rotValue (bitsOf x.toNat 8) = if x = 0x80#8 then 128 else x.toInt := by
    rw [← valS_bus (by decide) x]
    exact if_congr (by rw [valU_bus]; exact BitVec.toNat_inj (y := 0x80#8)) rfl rfl
  rw [hvalue, apply_ite (BitVec.ofInt 9)]
  rfl

/-- A numerator over its own denominator is scaled back exactly (10_state.md rule R41). -/
theorem truncMul_mkRat {k : Nat} (hk : 0 < k) (v : Int) : truncMul k (mkRat v k) = v := by
  have hk0 : (k : Rat) ≠ 0 := by exact_mod_cast hk.ne'
  have hprod : (k : Rat) * mkRat v k = v := by rw [Rat.mkRat_eq_div]; exact mul_div_cancel₀ _ hk0
  rw [truncMul_eq_trunc, hprod, trunc_eq_tdiv, Rat.num_intCast, Rat.den_intCast, Nat.cast_one, Int.tdiv_one]

/-- A raw value in tenths on a numerator port over 10. -/
theorem ofInt_truncMul_tenths {w : Nat} (v : Nat) (x : BitVec w) :
    BitVec.ofInt v (truncMul 10 (mkRat x.toNat 10)) = x.setWidth v := by
  rw [truncMul_mkRat (by decide), BitVec.ofInt_natCast, BitVec.ofNat_toNat]

theorem ofInt_truncMul_sogValue (x : BitVec 10) : BitVec.ofInt 14 (truncMul 10 (sogValue x.toNat)) = sogPort x := by
  have hvalue : sogValue x.toNat = if x = 1022#10 then 1022 else if x = 1023#10 then 1023 else mkRat x.toNat 10 :=
    if_congr (BitVec.toNat_inj (y := 1022#10)) rfl (if_congr (BitVec.toNat_inj (y := 1023#10)) rfl rfl)
  rw [hvalue, apply_ite (truncMul 10), apply_ite (BitVec.ofInt 14), apply_ite (truncMul 10), apply_ite (BitVec.ofInt 14),
    ofInt_truncMul_tenths]
  rfl

theorem ofInt_truncMul_cogValue (x : BitVec 12) : BitVec.ofInt 16 (truncMul 10 (cogValue x.toNat)) = cogPort x := by
  have hvalue : cogValue x.toNat = if x = 3600#12 then 3600 else mkRat x.toNat 10 :=
    if_congr (BitVec.toNat_inj (y := 3600#12)) rfl rfl
  rw [hvalue, apply_ite (truncMul 10), apply_ite (BitVec.ofInt 16), ofInt_truncMul_tenths]
  rfl

/-- A position on its numerator port is its bus slice, signed. -/
theorem ofInt_truncMul_valS_bus {w : Nat} (hpos : 1 ≤ w) (x : BitVec w) :
    BitVec.ofInt w (truncMul 600000 (mkRat (valS (bitsOf x.toNat w)) 600000)) = x := by
  rw [truncMul_mkRat (by decide), valS_bus hpos, BitVec.ofInt_toInt]

/-! ## The result ports as bus slices (44_navblock_decode.md rule R241) -/

/-! The components of the record, one by one (44_navblock_decode.md rule R241). -/

theorem recordOf_msgType (b : Bits) : (recordOf b).msgType = valU (fieldBits 0 b) := rfl
theorem recordOf_repeatInd (b : Bits) : (recordOf b).repeatInd = valU (fieldBits 1 b) := rfl
theorem recordOf_mmsi (b : Bits) : (recordOf b).mmsi = valU (fieldBits 2 b) := rfl
theorem recordOf_navStatus (b : Bits) : (recordOf b).navStatus = valU (fieldBits 3 b) := rfl
theorem recordOf_rot (b : Bits) : (recordOf b).rot = rotValue (fieldBits 4 b) := rfl
theorem recordOf_sog (b : Bits) : (recordOf b).sog = sogValue (valU (fieldBits 5 b)) := rfl
theorem recordOf_posAcc (b : Bits) : (recordOf b).posAcc = decide (valU (fieldBits 6 b) = 1) := rfl
theorem recordOf_lon (b : Bits) : (recordOf b).lon = mkRat (valS (fieldBits 7 b)) 600000 := rfl
theorem recordOf_lat (b : Bits) : (recordOf b).lat = mkRat (valS (fieldBits 8 b)) 600000 := rfl
theorem recordOf_cog (b : Bits) : (recordOf b).cog = cogValue (valU (fieldBits 9 b)) := rfl
theorem recordOf_hdg (b : Bits) : (recordOf b).hdg = valU (fieldBits 10 b) := rfl
theorem recordOf_ts (b : Bits) : (recordOf b).ts = valU (fieldBits 11 b) := rfl
theorem recordOf_maneuver (b : Bits) : (recordOf b).maneuver = valU (fieldBits 12 b) := rfl
theorem recordOf_spare (b : Bits) : (recordOf b).spare = valU (fieldBits 13 b) := rfl
theorem recordOf_raim (b : Bits) : (recordOf b).raim = decide (valU (fieldBits 14 b) = 1) := rfl
theorem recordOf_radio (b : Bits) : (recordOf b).radio = valU (fieldBits 15 b) := rfl

/-- The result ports of NAV.DEC as bus slices of the block (44_navblock_decode.md rule R241). -/
def portsOfBlock (b : Block) : NavOut :=
  { msgType := b.extractLsb' 162 6
    repeatInd := b.extractLsb' 160 2
    mmsi := b.extractLsb' 130 30
    navStatus := b.extractLsb' 126 4
    rot := rotPort (b.extractLsb' 118 8)
    sog := sogPort (b.extractLsb' 108 10)
    posAcc := b.getLsbD 107
    lon := b.extractLsb' 79 28
    lat := b.extractLsb' 52 27
    cog := cogPort (b.extractLsb' 40 12)
    hdg := b.extractLsb' 31 9
    ts := b.extractLsb' 25 6
    maneuver := b.extractLsb' 23 2
    spare := b.extractLsb' 20 3
    raim := b.getLsbD 19
    radio := b.extractLsb' 0 19 }

/-- The record of the block on a bus is driven as its bus slices (10_state.md rule R41). -/
theorem driveRecord_recordOf_bus (b : Block) : driveRecord (recordOf (bitsOf b.toNat 168)) = portsOfBlock b := by
  refine (NavOut.mk.injEq ..).mpr ⟨?_, ?_, ?_, ?_, ?_, ?_, ?_, ?_, ?_, ?_, ?_, ?_, ?_, ?_, ?_, ?_⟩
  · rw [recordOf_msgType, ofNat_valU_fieldBits_bus b (low := 162) (width := 6) (by decide) rfl rfl]
  · rw [recordOf_repeatInd, ofNat_valU_fieldBits_bus b (low := 160) (width := 2) (by decide) rfl rfl]
  · rw [recordOf_mmsi, ofNat_valU_fieldBits_bus b (low := 130) (width := 30) (by decide) rfl rfl]
  · rw [recordOf_navStatus, ofNat_valU_fieldBits_bus b (low := 126) (width := 4) (by decide) rfl rfl]
  · rw [recordOf_rot, fieldBits_bus b (low := 118) (width := 8) (by decide) rfl rfl, ofInt_rotValue_bus]
  · rw [recordOf_sog, fieldBits_bus b (low := 108) (width := 10) (by decide) rfl rfl, valU_bus, ofInt_truncMul_sogValue]
  · rw [recordOf_posAcc, fieldBits_bus b (low := 107) (width := 1) (by decide) rfl rfl, decide_valU_bit]
  · rw [recordOf_lon, fieldBits_bus b (low := 79) (width := 28) (by decide) rfl rfl, ofInt_truncMul_valS_bus (by decide)]
  · rw [recordOf_lat, fieldBits_bus b (low := 52) (width := 27) (by decide) rfl rfl, ofInt_truncMul_valS_bus (by decide)]
  · rw [recordOf_cog, fieldBits_bus b (low := 40) (width := 12) (by decide) rfl rfl, valU_bus, ofInt_truncMul_cogValue]
  · rw [recordOf_hdg, ofNat_valU_fieldBits_bus b (low := 31) (width := 9) (by decide) rfl rfl]
  · rw [recordOf_ts, ofNat_valU_fieldBits_bus b (low := 25) (width := 6) (by decide) rfl rfl]
  · rw [recordOf_maneuver, ofNat_valU_fieldBits_bus b (low := 23) (width := 2) (by decide) rfl rfl]
  · rw [recordOf_spare, ofNat_valU_fieldBits_bus b (low := 20) (width := 3) (by decide) rfl rfl]
  · rw [recordOf_raim, fieldBits_bus b (low := 19) (width := 1) (by decide) rfl rfl, decide_valU_bit]
  · rw [recordOf_radio, ofNat_valU_fieldBits_bus b (low := 0) (width := 19) (by decide) rfl rfl]

/-- What NAV.DEC delivers (60_exceptions.md rule R330). -/
theorem exec_navDec_eq (s : State) : exec .navDec s = .next { s with response := some ⟨0x00#8, 0x00#8,
    some (.record (portsOfBlock s.request.blk))⟩ } := by
  have hdeliver : exec .navDec s = .next { s with response := some ⟨0x00#8, 0x00#8,
      some (.record (driveRecord (recordOf (bitsOf s.request.blk.toNat 168))))⟩ } := rfl
  rw [hdeliver, driveRecord_recordOf_bus]

/-- The outcome of NAV.DEC, by the length of the sequence (44_navblock_decode.md rule R241). -/
theorem navDec_eq_ite (b : Bits) : navDec b = if b.length = 168 then .ok (recordOf b)
    else .fault .blockLengthMismatch (BitVec.ofNat 8 b.length) := require_decide _ _ _ _

theorem navDec_eq_ok_iff {b : Bits} {r : NavRecord} : navDec b = .ok r ↔ b.length = 168 ∧ recordOf b = r :=
  require_decide_eq_ok_iff.trans (by rw [OpOutcome.ok.injEq])

/-- Settles O44, by the length check over abstract sequences and slice by slice on the port. -/
theorem navDecodeResult : Obligations.NavDecodeResult := by
  refine ⟨rfl, fun b hlen info hinfo => ?_, ?_⟩
  · have hbyte : info = BitVec.ofNat 8 b.length := BitVec.eq_of_toNat_eq (by rw [hinfo, BitVec.toNat_ofNat])
    rw [navDec_eq_ite, if_neg hlen, hbyte]
  · rintro s b rfl
    exact exec_navDec_eq s

/-! ## The ports determine the block (44_navblock_decode.md rule R263) -/

theorem toInt_rotPort (x : BitVec 8) : (rotPort x).toInt = if x = 0x80#8 then 128 else x.toInt :=
  (apply_ite BitVec.toInt _ _ _).trans (if_congr Iff.rfl rfl (BitVec.toInt_signExtend_of_le (by decide)))

/-- The sentinel is presented above every two's-complement value of its field. -/
theorem rotPort_injective {x y : BitVec 8} (h : rotPort x = rotPort y) : x = y := by
  have hport := congrArg BitVec.toInt h
  rw [toInt_rotPort, toInt_rotPort] at hport
  have hxlt : x.toInt < 2 ^ 7 := x.toInt_lt
  have hylt : y.toInt < 2 ^ 7 := y.toInt_lt
  split_ifs at hport with hx hy hy
  · rw [hx, hy]
  · omega
  · omega
  · exact BitVec.toInt_inj.mp hport

theorem toNat_sogPort (x : BitVec 10) : (sogPort x).toNat =
    if x.toNat = 1022 then 10220 else if x.toNat = 1023 then 10230 else x.toNat := by
  have hlow : (x.setWidth 14).toNat = x.toNat := BitVec.toNat_setWidth_of_le (by decide)
  have h1022 : x = 1022#10 ↔ x.toNat = 1022 := (BitVec.toNat_inj (y := 1022#10)).symm
  have h1023 : x = 1023#10 ↔ x.toNat = 1023 := (BitVec.toNat_inj (y := 1023#10)).symm
  exact (apply_ite BitVec.toNat _ _ _).trans
    (if_congr h1022 rfl ((apply_ite BitVec.toNat _ _ _).trans (if_congr h1023 rfl hlow)))

theorem toNat_cogPort (x : BitVec 12) : (cogPort x).toNat = if x.toNat = 3600 then 36000 else x.toNat := by
  have hlow : (x.setWidth 16).toNat = x.toNat := BitVec.toNat_setWidth_of_le (by decide)
  have h3600 : x = 3600#12 ↔ x.toNat = 3600 := (BitVec.toNat_inj (y := 3600#12)).symm
  exact (apply_ite BitVec.toNat _ _ _).trans (if_congr h3600 rfl hlow)

/-- The presented integers are above every raw value, so no two speeds are presented alike (44_navblock_decode.md rule
R263). -/
theorem sogPort_injective {x y : BitVec 10} (h : sogPort x = sogPort y) : x = y := by
  have hport := congrArg BitVec.toNat h
  rw [toNat_sogPort, toNat_sogPort] at hport
  have hx := x.isLt
  have hy := y.isLt
  apply BitVec.eq_of_toNat_eq
  split_ifs at hport <;> omega

theorem cogPort_injective {x y : BitVec 12} (h : cogPort x = cogPort y) : x = y := by
  have hport := congrArg BitVec.toNat h
  rw [toNat_cogPort, toNat_cogPort] at hport
  have hx := x.isLt
  have hy := y.isLt
  apply BitVec.eq_of_toNat_eq
  split_ifs at hport <;> omega

theorem extractLsb'_one_eq (b : Block) (i : Nat) : b.extractLsb' i 1 = BitVec.ofBool (b.getLsbD i) := by
  apply BitVec.eq_of_toNat_eq
  rw [BitVec.extractLsb'_toNat, pow_one, BitVec.toNat_ofBool, Nat.shiftRight_eq_div_pow]
  exact (Nat.toNat_testBit b.toNat i).symm

/-- Blocks with the same sixteen bus slices are equal (30_encoding.md rule R81). -/
theorem eq_of_busSlices {a b : Block}
    (h : ∀ k < 16, a.extractLsb' (busLow k) (busWidth k) = b.extractLsb' (busLow k) (busWidth k)) : a = b := by
  have hbits : bitsOf a.toNat 168 = bitsOf b.toNat 168 :=
    eq_of_fieldBits_eq (length_bitsOf _ _) (length_bitsOf _ _) fun k hk => by
      rw [fieldBits_bus a hk rfl rfl, fieldBits_bus b hk rfl rfl, h k hk]
  apply BitVec.eq_of_toNat_eq
  rw [← valU_bus a, hbits, valU_bus]

/-- The result ports determine the block: each component determines its slice (44_navblock_decode.md rule R263). -/
theorem portsOfBlock_injective {a b : Block} (h : portsOfBlock a = portsOfBlock b) : a = b := by
  have hbit {i : Nat} (hi : a.getLsbD i = b.getLsbD i) : a.extractLsb' i 1 = b.extractLsb' i 1 := by
    rw [extractLsb'_one_eq, extractLsb'_one_eq, hi]
  apply eq_of_busSlices
  intro k hk
  interval_cases k
  exacts [congrArg NavOut.msgType h, congrArg NavOut.repeatInd h, congrArg NavOut.mmsi h, congrArg NavOut.navStatus h,
    rotPort_injective (congrArg NavOut.rot h), sogPort_injective (congrArg NavOut.sog h), hbit (congrArg NavOut.posAcc h),
    congrArg NavOut.lon h, congrArg NavOut.lat h, cogPort_injective (congrArg NavOut.cog h), congrArg NavOut.hdg h,
    congrArg NavOut.ts h, congrArg NavOut.maneuver h, congrArg NavOut.spare h, hbit (congrArg NavOut.raim h),
    congrArg NavOut.radio h]

/-- A sequence of 168 bits is one that stands on the bus. -/
theorem exists_bus {b : Bits} (hlen : b.length = 168) : ∃ x : Block, b = bitsOf x.toNat 168 := by
  refine ⟨BitVec.ofNat 168 (valU b), ?_⟩
  rw [BitVec.toNat_ofNat, bitsOf_mod, ← hlen, bitsOf_valU]

/-- Settles O46: the result ports determine the block, and they are driven from the record. -/
theorem navDecodeIsInjective : Obligations.NavDecodeIsInjective := by
  refine ⟨fun a b r ha hb => ?_, fun s t hne => ?_⟩
  · rw [navDec_eq_ok_iff] at ha hb
    obtain ⟨halen, har⟩ := ha
    obtain ⟨hblen, hbr⟩ := hb
    obtain ⟨x, rfl⟩ := exists_bus halen
    obtain ⟨y, rfl⟩ := exists_bus hblen
    have hports : portsOfBlock x = portsOfBlock y := by
      rw [← driveRecord_recordOf_bus, har, ← hbr, driveRecord_recordOf_bus]
    rw [portsOfBlock_injective hports]
  · refine ⟨_, _, exec_navDec_eq s, exec_navDec_eq t, fun hresponse => hne (portsOfBlock_injective ?_)⟩
    exact ResultPorts.record.inj (Option.some.inj (congrArg Response.result (Option.some.inj hresponse)))

/-! ## What NAV.ENC returns of a record whose fields all fit (43_navblock_encode.md rule R201) -/

/-- Where a range of 43_navblock_encode.md rule R203 is checked, PACK's indications are that range. -/
theorem fits_iff_fieldFits {k : Nat} (hk : k < 16) (hchecked : k ∉ [0, 1, 6, 14]) {f : Int} :
    Field.fits ⟨busWidth k, fieldSort k⟩ f = true ↔ FieldFits k f := by
  interval_cases k
  · exact absurd (by decide) hchecked
  · exact absurd (by decide) hchecked
  · exact fits_unsigned_iff
  · exact fits_unsigned_iff_of_pred_eq (w := 4) (m := 15) rfl
  · refine fits_rot_iff.trans (show _ ↔ -128 ≤ f ∧ f ≤ 128 from ?_)
    change (-2 ^ 7 ≤ f ∧ f < 2 ^ 7) ∨ f = 128 ↔ _
    omega
  · exact fits_unsigned_iff_of_pred_eq (w := 10) (m := 1023) rfl
  · exact absurd (by decide) hchecked
  · refine fits_signed_iff.trans (show _ ↔ -134217728 ≤ f ∧ f ≤ 134217727 from ?_)
    change -2 ^ 27 ≤ f ∧ f < 2 ^ 27 ↔ _
    omega
  · refine fits_signed_iff.trans (show _ ↔ -67108864 ≤ f ∧ f ≤ 67108863 from ?_)
    change -2 ^ 26 ≤ f ∧ f < 2 ^ 26 ↔ _
    omega
  · exact fits_unsigned_iff_of_pred_eq (w := 12) (m := 4095) rfl
  · exact fits_unsigned_iff_of_pred_eq (w := 9) (m := 511) rfl
  · exact fits_unsigned_iff_of_pred_eq (w := 6) (m := 63) rfl
  · exact fits_unsigned_iff_of_pred_eq (w := 2) (m := 3) rfl
  · exact fits_unsigned_iff_of_pred_eq (w := 3) (m := 7) rfl
  · exact absurd (by decide) hchecked
  · exact fits_unsigned_iff_of_pred_eq (w := 19) (m := 524287) rfl

/-- The constants and the Booleans fit (43_navblock_encode.md rules R210 to R225). -/
theorem fits_unchecked (x : NavInput) : ∀ k ∈ [0, 1, 6, 14],
    Field.fits ⟨busWidth k, fieldSort k⟩ (rawValue x k) = true := by
  have hbool (b : Bool) : Field.fits ⟨1, .unsigned⟩ (if b then 1 else 0) = true := by cases b <;> decide
  rw [List.forall_mem_cons, List.forall_mem_cons, List.forall_mem_cons, List.forall_mem_singleton]
  exact ⟨rfl, rfl, hbool _, hbool _⟩

theorem fits_of_allFit {x : NavInput} (h : AllFit x) {k : Nat} (hk : k < 16) :
    Field.fits ⟨busWidth k, fieldSort k⟩ (rawValue x k) = true := by
  by_cases hchecked : k ∈ [0, 1, 6, 14]
  · exact fits_unchecked x k hchecked
  · exact (fits_iff_fieldFits hk hchecked).mpr (h k hk)

/-- No element of the mask is set (43_navblock_encode.md rule R204). -/
theorem firstSet_ovfMask_of_allFit {x : NavInput} (h : AllFit x) : firstSet (ovfMask (rawFields x)) = none := by
  refine List.findIdx?_eq_none_iff.mpr fun m hm => ?_
  obtain ⟨k, hk, rfl⟩ := List.mem_iff_getElem.mp hm
  have hfields : k < fields.length := hk
  have hraw : k < (rawFields x).length := hk
  have hfits : (fields[k]'hfields).fits ((rawFields x)[k]'hraw) = true := by
    rw [getElem_fields k hfields, getElem_rawFields x hraw]
    exact fits_of_allFit h hfields
  exact List.getElem_zipWith.trans (congrArg Bool.not hfits)

/-- Without a set mask element NAV.ENC succeeds under either policy (43_navblock_encode.md rules R205 and R206). -/
theorem navEnc_of_allFit (p : Params) {x : NavInput} (h : AllFit x) :
    navEnc p x = .ok ⟨assemble (rawFields x), ovfMask (rawFields x)⟩ := by
  rw [navEnc, firstSet_ovfMask_of_allFit h]
  cases p.overflowPolicy <;> rfl

/-! ## The round trip (44_navblock_decode.md rule R264) -/

/-- NAV.DEC unpacks the raw value NAV.ENC packed, but −128 in the Rate-of-Turn field as +128. -/
theorem fieldValue_assemble {x : NavInput} (h : AllFit x) {k : Nat} (hk : k < 16) :
    fieldValue (assemble (rawFields x)) k = if fieldSort k = .rot ∧ rawValue x k = -128 then 128 else rawValue x k := by
  obtain ⟨hpos, hrot⟩ := busWidth_of_sort k hk
  rw [fieldValue_of_sort rfl, fieldBits_assemble rfl hk, getElem_fields k hk, getElem_rawFields]
  exact read_packBits hpos hrot (fits_of_allFit h hk)

theorem fieldValue_assemble_rot {x : NavInput} (h : AllFit x) : fieldValue (assemble (rawFields x)) 4 =
    if rotScale x.rateOfTurn = -128 then 128 else rotScale x.rateOfTurn :=
  (fieldValue_assemble h (k := 4) (by decide)).trans (if_congr (and_iff_right rfl) rfl rfl)

theorem fieldValue_assemble_of_ne_rot {x : NavInput} (h : AllFit x) {k : Nat} (hk : k < 16) (hrot : fieldSort k ≠ .rot) :
    fieldValue (assemble (rawFields x)) k = rawValue x k := by
  rw [fieldValue_assemble h hk, if_neg (fun hand => hrot hand.1)]

theorem valU_assemble {x : NavInput} (h : AllFit x) (k : Nat) (hk : k < 16 ∧ fieldSort k = .unsigned) :
    (valU (fieldBits k (assemble (rawFields x))) : Int) = rawValue x k := by
  rw [← read_unsigned, ← hk.2]
  exact fieldValue_assemble_of_ne_rot h hk.1 (by rw [hk.2]; decide)

theorem valS_assemble {x : NavInput} (h : AllFit x) (k : Nat) (hk : k < 16 ∧ fieldSort k = .signed) :
    valS (fieldBits k (assemble (rawFields x))) = rawValue x k := by
  rw [← read_signed, ← hk.2]
  exact fieldValue_assemble_of_ne_rot h hk.1 (by rw [hk.2]; decide)

/-- A speed by its raw value (44_navblock_decode.md rule R250). -/
theorem sogValue_of_natCast_eq {u : Nat} {v : Int} (h : (u : Int) = v) :
    sogValue u = if v = 1022 then 1022 else if v = 1023 then 1023 else (v : Rat) / 10 := by
  subst h
  exact if_congr Int.ofNat_inj.symm rfl (if_congr Int.ofNat_inj.symm rfl (Rat.mkRat_eq_div _ _))

/-- A course by its raw value (44_navblock_decode.md rule R254). -/
theorem cogValue_of_natCast_eq {u : Nat} {v : Int} (h : (u : Int) = v) :
    cogValue u = if v = 3600 then 3600 else (v : Rat) / 10 := by
  subst h
  exact if_congr Int.ofNat_inj.symm rfl (Rat.mkRat_eq_div _ _)

theorem decide_eq_one_of_natCast_eq {u : Nat} {b : Bool} (h : (u : Int) = if b then 1 else 0) :
    decide (u = 1) = b := by
  cases b with
  | true => exact decide_eq_true (Int.ofNat.inj h)
  | false => exact decide_eq_false (by rw [Int.ofNat.inj h]; decide)

/-- Truncation moves a rational toward zero by less than one (00_scope.md rule R16). -/
theorem trunc_bounds (q : Rat) : |q - trunc q| < 1 ∧ |(trunc q : Rat)| ≤ |q| := by
  rcases le_or_gt 0 q with hq | hq
  · obtain ⟨hle, hlt, hnonneg⟩ := trunc_of_nonneg hq
    rw [abs_of_nonneg (sub_nonneg.mpr hle), abs_of_nonneg (Int.cast_nonneg hnonneg), abs_of_nonneg hq]
    exact ⟨sub_lt_iff_lt_add'.mpr hlt, hle⟩
  · obtain ⟨hge, hgt, hnonpos⟩ := trunc_of_neg hq
    rw [abs_of_nonpos (sub_nonpos.mpr hge), neg_sub, abs_of_nonpos (Int.cast_nonpos.mpr hnonpos), abs_of_neg hq]
    exact ⟨sub_lt_comm.mp hgt, neg_le_neg hge⟩

/-- A rational kept to a multiple of `1/k` moves toward zero by less than `1/k` (44_navblock_decode.md rule R264). -/
theorem trunc_mul_div_bounds {k : Rat} (hk : 0 < k) (q : Rat) :
    |q - trunc (k * q) / k| < 1 / k ∧ |(trunc (k * q) : Rat) / k| ≤ |q| := by
  obtain ⟨hdist, habs⟩ := trunc_bounds (k * q)
  have hdiff : q - trunc (k * q) / k = (k * q - trunc (k * q)) / k := by rw [sub_div, mul_div_cancel_left₀ q hk.ne']
  rw [hdiff, abs_div, abs_div, abs_of_pos hk, div_lt_div_iff_of_pos_right hk, div_le_iff₀ hk]
  rw [abs_mul, abs_of_pos hk, mul_comm k |q|] at habs
  exact ⟨hdist, habs⟩

/-- A position whose field holds its truncation to 1/600000 degree (44_navblock_decode.md rule R264). -/
theorem position_of_valS_eq {b : Bits} {q : Rat} (h : valS b = trunc (600000 * q)) :
    mkRat (valS b) 600000 = (trunc (600000 * q) : Rat) / 600000 ∧ |q - mkRat (valS b) 600000| < 1 / 600000 ∧
      |mkRat (valS b) 600000| ≤ |q| := by
  have hpos : mkRat (valS b) 600000 = (trunc (600000 * q) : Rat) / 600000 := by
    rw [h, Rat.mkRat_eq_div]
    norm_cast
  rw [hpos]
  exact ⟨rfl, trunc_mul_div_bounds (by norm_num) q⟩

/-- Settles O47: each field of the assembled block reads back as its raw value, and each component presents it. -/
theorem encodeThenDecodeRoundTrip : Obligations.EncodeThenDecodeRoundTrip := by
  intro p x h
  have hU := valU_assemble h
  have hrot := fieldValue_assemble_rot h
  obtain ⟨hlon, hlonDist, hlonAbs⟩ := position_of_valS_eq (q := x.longitude) (valS_assemble h 7 (by decide))
  obtain ⟨hlat, hlatDist, hlatAbs⟩ := position_of_valS_eq (q := x.latitude) (valS_assemble h 8 (by decide))
  refine ⟨_, _, navEnc_of_allFit p h, navDec_eq_ok_iff.mpr ⟨length_assemble rfl, rfl⟩, ?_⟩
  rw [recordOf_msgType, recordOf_repeatInd, recordOf_mmsi, recordOf_navStatus, recordOf_rot, recordOf_sog,
    recordOf_posAcc, recordOf_lon, recordOf_lat, recordOf_cog, recordOf_hdg, recordOf_ts, recordOf_maneuver,
    recordOf_spare, recordOf_raim, recordOf_radio]
  exact ⟨Int.ofNat.inj (hU 0 (by decide)), Int.ofNat.inj (hU 1 (by decide)), hU 2 (by decide), hU 3 (by decide), hrot,
    sogValue_of_natCast_eq (hU 5 (by decide)), decide_eq_one_of_natCast_eq (hU 6 (by decide)),
    hlon, hlonDist, hlonAbs, hlat, hlatDist, hlatAbs, cogValue_of_natCast_eq (hU 9 (by decide)),
    hU 10 (by decide), hU 11 (by decide), hU 12 (by decide), hU 13 (by decide),
    decide_eq_one_of_natCast_eq (hU 14 (by decide)), hU 15 (by decide)⟩

end Sys2Proof.Machine
end

section
/-! The sentence family (45_sentence_validator.md): SENT.ENC and SENT.DEC, VALIDATE, the whole-message procedures. -/

namespace Sys2Proof.Machine

/-! A pause as before the NAV.DEC family, and for its reason: begun together with that family's proofs, the proofs below
overrun the memory the check allows. -/

example : True := by
  sleep 4000
  trivial

/-! ## Cutting at a delimiter (45_sentence_validator.md rule R286) -/

theorem split_cons_self (c : Byte) (s : Bytes) : split c (c :: s) = [] :: split c s := if_pos rfl

theorem split_cons_of_ne {b c : Byte} (h : b ≠ c) {s piece : Bytes} {pieces : List Bytes}
    (hs : split c s = piece :: pieces) : split c (b :: s) = (b :: piece) :: pieces := by
  rw [split, if_neg h, hs]

theorem splitOn_cons_self (c : Byte) (s : Bytes) : (c :: s).splitOn c = [] :: s.splitOn c :=
  (List.splitOnP_cons_eq_if_modifyHead ..).trans (if_pos (beq_self_eq_true c))

theorem splitOn_cons_of_ne {b c : Byte} (h : b ≠ c) (s : Bytes) :
    (b :: s).splitOn c = (s.splitOn c).modifyHead (b :: ·) :=
  (List.splitOnP_cons_eq_if_modifyHead ..).trans (if_neg (by simpa using h))

/-- `split` is the library's cut at a separator. -/
theorem split_eq_splitOn (c : Byte) (s : Bytes) : split c s = s.splitOn c := by
  induction s with
  | nil => exact List.splitOnP_nil.symm
  | cons b s ih =>
    by_cases h : b = c
    · rw [h, split_cons_self, splitOn_cons_self, ih]
    · obtain ⟨piece, pieces, hs⟩ := List.exists_cons_of_ne_nil (List.splitOnP_ne_nil (· == c) s)
      have hs : s.splitOn c = piece :: pieces := hs
      rw [split_cons_of_ne h (ih.trans hs), splitOn_cons_of_ne h, hs, List.modifyHead_cons]

/-- A sequence without the delimiter is one piece. -/
theorem split_of_notMem {c : Byte} {s : Bytes} (h : c ∉ s) : split c s = [s] := by
  rw [split_eq_splitOn]
  exact List.splitOnP_eq_singleton fun b hb => beq_eq_false_iff_ne.mpr fun hbc => h (hbc ▸ hb)

/-- A delimiter separates the pieces on its sides. -/
theorem split_append_cons (c : Byte) (a b : Bytes) : split c (a ++ c :: b) = split c a ++ split c b := by
  simp only [split_eq_splitOn]
  exact List.splitOnP_append_cons a b (beq_self_eq_true c)

/-- `k` occurrences of the delimiter give `k + 1` pieces (45_sentence_validator.md rule R286). -/
theorem length_split (c : Byte) (s : Bytes) : (split c s).length = s.count c + 1 := by
  induction s with
  | nil => rfl
  | cons b s ih =>
    by_cases h : b = c
    · rw [h, split_cons_self, List.length_cons, ih, List.count_cons_self]
    · rw [split_eq_splitOn, splitOn_cons_of_ne h, List.length_modifyHead, ← split_eq_splitOn, ih,
        List.count_cons_of_ne h]

/-- A delimiter that stands once cuts the sequence in two. -/
theorem exists_append_cons_of_count_eq_one {c : Byte} {s : Bytes} (h : s.count c = 1) :
    ∃ a b, s = a ++ c :: b ∧ c ∉ a ∧ c ∉ b := by
  obtain ⟨a, b, rfl, ha⟩ := List.eq_append_cons_of_mem (List.count_pos_iff.mp (h.symm ▸ Nat.one_pos))
  rw [List.count_append, List.count_cons_self, List.count_eq_zero.mpr ha] at h
  exact ⟨a, b, rfl, ha, List.count_eq_zero.mp (by omega)⟩

/-! ## The tests of SENT.DEC (45_sentence_validator.md rules R286 to R288) -/

/-- The sentence of a body (45_sentence_validator.md rule R281). -/
def sentenceOfBody (body : Bytes) : Bytes := [0x21#8] ++ body ++ [0x2A#8] ++ csumHex (xorAll body)

theorem sentenceOfBody_eq (body : Bytes) :
    sentenceOfBody body = 0x21#8 :: body ++ 0x2A#8 :: csumHex (xorAll body) := by
  simp [sentenceOfBody]

theorem length_csumHex (cs : Byte) : (csumHex cs).length = 2 := rfl

/-- Test 4 (45_sentence_validator.md rule R288): seven fields are six commas. -/
theorem payloadOf_eq (body : Bytes) : payloadOf body =
    if body.count 0x2C#8 = 6 then .ok ((split 0x2C#8 body).getD 5 []) else .fault .malformedSentence 4#8 := by
  rw [payloadOf, require_decide, length_split]
  exact if_congr Nat.succ_inj rfl rfl

/-- Test 1 (45_sentence_validator.md rule R288): exactly one asterisk. -/
theorem sentDec_of_count_ne_one (p : Params) {snt : Bytes} (h : snt.count 0x2A#8 ≠ 1) :
    sentDec p snt = .fault .malformedSentence 1#8 := by
  unfold sentDec
  split
  next head tail hsplit =>
    have hlen := length_split 0x2A#8 snt
    rw [hsplit] at hlen
    exact absurd (Nat.succ.inj hlen).symm h
  next => rfl

section

variable (p : Params) {head body tail : Bytes}

/-- With one asterisk the tests go on with the parts before and after it (45_sentence_validator.md rule R286). -/
theorem sentDec_append_star (hhead : 0x2A#8 ∉ head) (htail : 0x2A#8 ∉ tail) :
    sentDec p (head ++ 0x2A#8 :: tail) =
      require (decide (head.head? = some 0x21#8)) .malformedSentence 2#8
        (require (decide (tail.length = 2)) .malformedSentence 3#8
          ((csum p head.tail).andThen fun r =>
            require (decide (tail = r.csHex)) .checksumMismatch r.cs (payloadOf head.tail))) := by
  rw [sentDec, split_append_cons, split_of_notMem hhead, split_of_notMem htail]
  rfl

/-- Test 2 (45_sentence_validator.md rule R288): an exclamation mark in front. -/
theorem sentDec_of_head_ne (hhead : 0x2A#8 ∉ head) (htail : 0x2A#8 ∉ tail) (h : head.head? ≠ some 0x21#8) :
    sentDec p (head ++ 0x2A#8 :: tail) = .fault .malformedSentence 2#8 := by
  rw [sentDec_append_star p hhead htail, require_decide, if_neg h]

/-- The tests on the body and the bytes after the asterisk, in their order (45_sentence_validator.md rules R286 to
R289). -/
theorem sentDec_body (hbody : 0x2A#8 ∉ body) (htail : 0x2A#8 ∉ tail) :
    sentDec p (0x21#8 :: body ++ 0x2A#8 :: tail) =
      if tail.length = 2 then
        if body.length ≤ p.bodyMax then
          if tail = csumHex (xorAll body) then payloadOf body else .fault .checksumMismatch (xorAll body)
        else .fault .lengthOutOfRange (BitVec.ofNat 8 body.length)
      else .fault .malformedSentence 3#8 := by
  have hhead : 0x2A#8 ∉ 0x21#8 :: body := List.not_mem_cons_of_ne_of_not_mem (by decide) hbody
  rw [sentDec_append_star p hhead htail, require_decide, if_pos List.head?_cons, require_decide, List.tail_cons,
    csum_eq]
  refine if_congr Iff.rfl ?_ rfl
  by_cases hlen : body.length ≤ p.bodyMax
  · rw [if_pos hlen, if_pos hlen, OpOutcome.andThen_ok, require_decide]
  · rw [if_neg hlen, if_neg hlen, OpOutcome.andThen_fault]

end

/-- A sentence has the delimiters of the frame, or test 1 or test 2 refuses it. -/
theorem sentence_cases (p : Params) (snt : Bytes) : (∃ info, sentDec p snt = .fault .malformedSentence info) ∨
    ∃ body tail, 0x2A#8 ∉ body ∧ 0x2A#8 ∉ tail ∧ snt = 0x21#8 :: body ++ 0x2A#8 :: tail := by
  by_cases hcount : snt.count 0x2A#8 = 1
  · obtain ⟨head, tail, rfl, hhead, htail⟩ := exists_append_cons_of_count_eq_one hcount
    by_cases hbang : head.head? = some 0x21#8
    · obtain ⟨body, rfl⟩ := List.head?_eq_some_iff.mp hbang
      exact .inr ⟨body, tail, List.not_mem_of_not_mem_cons hhead, htail, rfl⟩
    · exact .inl ⟨_, sentDec_of_head_ne p hhead htail hbang⟩
  · exact .inl ⟨_, sentDec_of_count_ne_one p hcount⟩

/-- Digits are not below `0`, as the delimiters are (30_encoding.md rule R95). -/
theorem le_toNat_hexDigit (d : BitVec 4) : 0x30 ≤ (hexDigit d).toNat := by
  have hd := d.isLt
  rw [hexDigit_eq_ofNat, BitVec.toNat_ofNat]
  split_ifs <;> omega

/-- The checksum digits hold no delimiter. -/
theorem notMem_csumHex (cs : Byte) {c : Byte} (hc : c.toNat < 0x30) : c ∉ csumHex cs := by
  have hne (d : BitVec 4) : c ≠ hexDigit d := fun h => absurd (h ▸ le_toNat_hexDigit d) (Nat.not_le.mpr hc)
  rw [csumHex, List.mem_pair]
  exact not_or.mpr ⟨hne _, hne _⟩

/-- What SENT.DEC accepts: the sentence of a body without asterisk, within `BODY_MAX`, that has seven fields. -/
theorem sentDec_eq_ok_iff {p : Params} {snt payload : Bytes} : sentDec p snt = .ok payload ↔
    ∃ body, 0x2A#8 ∉ body ∧ body.length ≤ p.bodyMax ∧ snt = sentenceOfBody body ∧ payloadOf body = .ok payload := by
  constructor
  · intro h
    rcases sentence_cases p snt with ⟨info, hfault⟩ | ⟨body, tail, hbody, htail, rfl⟩
    · rw [h] at hfault
      cases hfault
    · rw [sentDec_body p hbody htail] at h
      split_ifs at h with hlen hmax hdigits
      exact ⟨body, hbody, hmax, by rw [sentenceOfBody_eq, hdigits], h⟩
  · rintro ⟨body, hbody, hmax, rfl, h⟩
    rw [sentenceOfBody_eq, sentDec_body p hbody (notMem_csumHex _ (by decide)), if_pos (length_csumHex _), if_pos hmax,
      if_pos rfl, h]

/-- A sentence whose body is within `BODY_MAX` is accepted or gets one of the two faults that SENT.DEC raises itself
(45_sentence_validator.md rules R280 and R289). -/
theorem sentDec_ok_or_host_fault {p : Params} {snt : Bytes} (h : snt.length ≤ p.bodyMax + 4) :
    (∃ payload, sentDec p snt = .ok payload) ∨
      ∃ k info, sentDec p snt = .fault k info ∧ (k = .checksumMismatch ∨ k = .malformedSentence) := by
  rcases sentence_cases p snt with ⟨info, hfault⟩ | ⟨body, tail, hbody, htail, rfl⟩
  · exact .inr ⟨_, _, hfault, .inr rfl⟩
  rw [sentDec_body p hbody htail, payloadOf_eq]
  by_cases hlen : tail.length = 2
  · rw [List.length_append, List.length_cons, List.length_cons, hlen] at h
    have hmax : body.length ≤ p.bodyMax := by omega
    rw [if_pos hlen, if_pos hmax]
    by_cases hdigits : tail = csumHex (xorAll body)
    · rw [if_pos hdigits]
      by_cases hcount : body.count 0x2C#8 = 6
      · exact .inl ⟨_, if_pos hcount⟩
      · exact .inr ⟨_, _, if_neg hcount, .inr rfl⟩
    · exact .inr ⟨_, _, if_neg hdigits, .inl rfl⟩
  · exact .inr ⟨_, _, if_neg hlen, .inr rfl⟩

/-- Settles O51: each clause is one branch of the tests, and fields without commas are the pieces of the body. -/
theorem sentenceDecodeTestsInOrder : Obligations.SentenceDecodeTestsInOrder := by
  refine fun p => ⟨fun snt => sentDec_of_count_ne_one p, fun head tail hhead htail => ?_⟩
  refine ⟨sentDec_of_head_ne p hhead htail, ?_⟩
  rintro body rfl
  have hbody : 0x2A#8 ∉ body := List.not_mem_of_not_mem_cons hhead
  rw [sentDec_body p hbody htail, payloadOf_eq]
  refine ⟨fun hlen => if_neg hlen, fun hlen hmax => ?_, fun hlen hmax => ?_⟩
  · rw [if_pos hlen, if_neg (Nat.not_le.mpr hmax)]
  rw [if_pos hlen, if_pos hmax]
  refine ⟨fun hdigits => if_neg hdigits, fun hdigits => ?_⟩
  rw [if_pos hdigits]
  refine ⟨fun hcount => if_neg hcount, ?_⟩
  intro f0 f1 f2 f3 f4 f5 f6 hfields hintercalate
  have hsplit : split 0x2C#8 body = [f0, f1, f2, f3, f4, f5, f6] := by
    rw [split_eq_splitOn, hintercalate]
    exact List.splitOn_intercalate _ hfields (List.cons_ne_nil _ _)
  have hcount : body.count 0x2C#8 = 6 := by
    have hlength := length_split 0x2C#8 body
    rw [hsplit] at hlength
    exact (Nat.succ.inj hlength).symm
  rw [if_pos hcount, hsplit]
  rfl

/-! ## Single-byte changes (45_sentence_validator.md rule R291) -/

/-- Replacing one byte without changing the XOR changes nothing (42_checksum.md rule R185). -/
theorem set_eq_self_of_xorAll_eq {a : Bytes} {j : Nat} {c : Byte} (hj : j < a.length)
    (h : xorAll (a.set j c) = xorAll a) : a.set j c = a := by
  have hget : xorAll (a.set j a[j]) = xorAll a := by rw [List.set_getElem_self]
  rw [← hget, List.set_eq_take_append_cons_drop, if_pos hj, List.set_eq_take_append_cons_drop, if_pos hj,
    xorAll_replace_iff] at h
  rw [h, List.set_getElem_self]

theorem length_sentenceOfBody (body : Bytes) : (sentenceOfBody body).length = body.length + 4 := by
  rw [sentenceOfBody_eq, List.length_append, List.length_cons, List.length_cons, length_csumHex]

/-- A single-byte change that gives the sentence of a body again gives it of the same body. -/
theorem body_eq_of_set_sentenceOfBody {a b : Bytes} {i : Nat} {c : Byte}
    (h : (sentenceOfBody a).set i c = sentenceOfBody b) : b = a := by
  have hlen : a.length = b.length := by
    have hlength := congrArg List.length h
    rw [List.length_set, length_sentenceOfBody, length_sentenceOfBody] at hlength
    exact Nat.add_right_cancel hlength
  rw [sentenceOfBody_eq, sentenceOfBody_eq, List.cons_append, List.cons_append] at h
  cases i with
  | zero =>
    obtain ⟨hbody, -⟩ := List.append_inj (List.cons.inj h).2 hlen
    exact hbody.symm
  | succ j =>
    obtain ⟨-, hrest⟩ := List.cons.inj h
    rw [List.set_append] at hrest
    split_ifs at hrest with hj
    · obtain ⟨hbody, htail⟩ := List.append_inj hrest (by rw [List.length_set, hlen])
      have hxor : xorAll a = xorAll b := csumHex_injective (List.cons.inj htail).2
      rw [← hbody, set_eq_self_of_xorAll_eq hj (by rw [hbody, hxor])]
    · obtain ⟨hbody, -⟩ := List.append_inj hrest hlen
      exact hbody.symm

/-- Settles O52: the changed sentence is no longer than the accepted one, so its body is within `BODY_MAX`, and if it
were accepted it would be the same sentence. -/
theorem singleByteChangeIsNeverAccepted : Obligations.SingleByteChangeIsNeverAccepted := by
  intro p snt payload i c hok hi hne
  obtain ⟨body, -, hmax, rfl, -⟩ := sentDec_eq_ok_iff.mp hok
  have hlength : ((sentenceOfBody body).set i c).length ≤ p.bodyMax + 4 := by
    rw [List.length_set, length_sentenceOfBody]
    exact Nat.add_le_add_right hmax 4
  refine (sentDec_ok_or_host_fault hlength).resolve_left ?_
  rintro ⟨_, hchanged⟩
  obtain ⟨body', -, -, hset, -⟩ := sentDec_eq_ok_iff.mp hchanged
  have hsame := List.getElem?_set_self (a := c) hi
  rw [hset, body_eq_of_set_sentenceOfBody hset] at hsame
  exact hne hsame

/-! ## The sentence of SENT.ENC (45_sentence_validator.md rules R282 and R283) -/

/-- ARMOR.ENC within its limit (41_sixbit_armor.md rule R162). -/
theorem armorEnc_eq_ok {p : Params} {x : Bits} (h : x.length ≤ p.bitsMax) : armorEnc p x = .ok (armorChars x) :=
  armorEnc_eq_ok_iff.mpr ⟨h, rfl⟩

/-- ARMOR.ENC gives symbols only (41_sixbit_armor.md rule R164). -/
theorem mem_alphabet_of_mem_armorChars {x : Bits} {c : Byte} (hc : c ∈ armorChars x) : c ∈ alphabet := by
  rw [armorChars_eq_map, List.mem_map] at hc
  obtain ⟨j, -, rfl⟩ := hc
  rw [mem_alphabet_iff]
  refine ⟨_, (valU_lt _).trans_le (Nat.pow_le_pow_right (j := 6) Nat.two_pos ?_), rfl⟩
  rw [length_slice, Nat.add_sub_cancel_left]
  exact Nat.min_le_left 6 _

/-- Symbols are not below `0`, as the delimiters are (30_encoding.md rule R91). -/
theorem le_toNat_of_mem_alphabet {c : Byte} (hc : c ∈ alphabet) : 0x30 ≤ c.toNat := by
  obtain ⟨k, hk, rfl⟩ := (mem_alphabet_iff c).mp hc
  rw [sym_closed_form k hk, BitVec.toNat_ofNat]
  split_ifs <;> omega

/-- A payload holds no delimiter (41_sixbit_armor.md rule R164). -/
theorem notMem_armorChars (x : Bits) {c : Byte} (hc : c.toNat < 0x30) : c ∉ armorChars x :=
  fun hmem => absurd (le_toNat_of_mem_alphabet (mem_alphabet_of_mem_armorChars hmem)) (Nat.not_le.mpr hc)

theorem length_frameBody (payload : Bytes) : (frameBody payload).length = 15 + payload.length := by
  simp only [frameBody, framePrefix, frameSuffix, List.length_append, List.length_cons, List.length_nil]
  omega

/-- A delimiter stands in the body of SENT.ENC as often as in its literals (45_sentence_validator.md rule R283). -/
theorem count_frameBody_armorChars (x : Bits) {c : Byte} (hc : c.toNat < 0x30) :
    (frameBody (armorChars x)).count c = (framePrefix ++ frameSuffix).count c := by
  rw [frameBody, List.count_append, List.count_append, List.count_append,
    List.count_eq_zero.mpr (notMem_armorChars x hc), Nat.add_zero]

/-- The seven fields of a framed body, of which number 5 is the payload (45_sentence_validator.md rule R286). -/
theorem frameBody_eq_intercalate (payload : Bytes) : frameBody payload =
    [0x2C#8].intercalate
      [[0x41#8, 0x49#8, 0x56#8, 0x44#8, 0x4D#8], [0x31#8], [0x31#8], [], [0x41#8], payload, [0x30#8]] := by
  simp [frameBody, framePrefix, frameSuffix, List.intercalate, List.intersperse]

/-- Test 4 passes on the body of SENT.ENC and gives the payload (45_sentence_validator.md rule R290). -/
theorem payloadOf_frameBody_armorChars (x : Bits) : payloadOf (frameBody (armorChars x)) = .ok (armorChars x) := by
  have hcomma : 0x2C#8 ∉ armorChars x := notMem_armorChars x (by decide)
  have hsplit : split 0x2C#8 (frameBody (armorChars x)) =
      [[0x41#8, 0x49#8, 0x56#8, 0x44#8, 0x4D#8], [0x31#8], [0x31#8], [], [0x41#8], armorChars x, [0x30#8]] := by
    rw [split_eq_splitOn, frameBody_eq_intercalate]
    exact List.splitOn_intercalate _ (by simp [hcomma]) (List.cons_ne_nil _ _)
  have hcount : (frameBody (armorChars x)).count 0x2C#8 = 6 := count_frameBody_armorChars x (by decide)
  rw [payloadOf_eq, if_pos hcount, hsplit]
  rfl

section

variable {p : Params} {x : Bits}

/-- CSUM of the body of SENT.ENC, within the limits (42_checksum.md rule R181). -/
theorem csum_frameBody_armorChars (hbody : 15 + (x.length + 5) / 6 ≤ p.bodyMax) :
    csum p (frameBody (armorChars x)) =
      .ok ⟨xorAll (frameBody (armorChars x)), csumHex (xorAll (frameBody (armorChars x)))⟩ := by
  rw [csum_eq, if_pos (by rwa [length_frameBody, length_armorChars])]

/-- What SENT.ENC gives within the limits (45_sentence_validator.md rule R282). -/
theorem sentEnc_eq_ok (hbits : x.length ≤ p.bitsMax) (hbody : 15 + (x.length + 5) / 6 ≤ p.bodyMax) :
    sentEnc p x = .ok (sentenceOfBody (frameBody (armorChars x))) := by
  rw [sentEnc, armorEnc_eq_ok hbits, OpOutcome.andThen_ok, csum_frameBody_armorChars hbody]
  rfl

/-- SENT.DEC gives the payload of SENT.ENC back (45_sentence_validator.md rule R290). -/
theorem sentDec_sentenceOfBody_armorChars (hbody : 15 + (x.length + 5) / 6 ≤ p.bodyMax) :
    sentDec p (sentenceOfBody (frameBody (armorChars x))) = .ok (armorChars x) := by
  rw [sentDec_eq_ok_iff]
  refine ⟨_, ?_, ?_, rfl, payloadOf_frameBody_armorChars x⟩
  · exact List.count_eq_zero.mp (count_frameBody_armorChars x (by decide))
  · rwa [length_frameBody, length_armorChars]

end

/-- A delimiter stands in the sentence of SENT.ENC as often as in its literals (45_sentence_validator.md rule R283). -/
theorem count_sentenceOfBody_armorChars (x : Bits) {c : Byte} (hc : c.toNat < 0x30) :
    (sentenceOfBody (frameBody (armorChars x))).count c =
      [0x21#8].count c + (framePrefix ++ frameSuffix).count c + [0x2A#8].count c := by
  rw [sentenceOfBody, List.count_append, List.count_append, List.count_append, count_frameBody_armorChars x hc,
    List.count_eq_zero.mpr (notMem_csumHex _ hc), Nat.add_zero]

/-- Settles O49: the literals hold the delimiters, the payload and the digits hold none. -/
theorem sentenceFrame : Obligations.SentenceFrame := by
  intro p x hbits hbody
  refine ⟨armorChars x, frameBody (armorChars x), _, _, armorEnc_eq_ok hbits, csum_frameBody_armorChars hbody,
    sentEnc_eq_ok hbits hbody, rfl, rfl, length_csumHex _, count_sentenceOfBody_armorChars x (by decide),
    count_sentenceOfBody_armorChars x (by decide), count_sentenceOfBody_armorChars x (by decide), fun hlen => ?_⟩
  rw [length_sentenceOfBody, length_frameBody, length_armorChars, hlen]
  exact ⟨rfl, rfl, rfl⟩

/-- Settles O50, through what SENT.DEC accepts. -/
theorem sentenceDecodeInvertsEncode : Obligations.SentenceDecodeInvertsEncode := by
  intro p x hbits hbody
  refine ⟨?_, _, armorEnc_eq_ok hbits⟩
  rw [sentEnc_eq_ok hbits hbody, OpOutcome.andThen_ok, sentDec_sentenceOfBody_armorChars hbody, armorEnc_eq_ok hbits]

/-! ## VALIDATE (45_sentence_validator.md rule R300) -/

/-- The fields VALIDATE checks: all but 6, 13 and 15 (45_sentence_validator.md rule R304). -/
def checkedFields : List Nat := [0, 1, 2, 3, 4, 5, 7, 8, 9, 10, 11, 12, 14]

theorem map_fst_checks (r : NavRecord) : (checks r).map Prod.fst = checkedFields := rfl

/-- The check of a field is its accepted range, in the words of the model's tests. -/
theorem check_iff_accepted (r : NavRecord) : ∀ c ∈ checks r, c.2 = true ↔ Accepted r c.1 := by
  simp only [checks, List.cons_append, List.nil_append, List.forall_mem_cons, Bool.or_eq_true, Bool.and_eq_true,
    decide_eq_true_eq, beq_iff_eq]
  exact ⟨Iff.rfl, Iff.rfl, Iff.rfl, and_iff_right (Nat.zero_le _), Iff.rfl, or_assoc, Iff.rfl, Iff.rfl, Iff.rfl,
    or_congr_left (and_iff_right (Nat.zero_le _)), Iff.rfl, and_iff_right (Nat.zero_le _),
    iff_of_true (Bool.eq_false_or_eq_true _) trivial, List.forall_mem_nil _⟩

/-- A component is accepted exactly when no check of its field fails (45_sentence_validator.md rule R304). -/
theorem accepted_iff_forall_checks (r : NavRecord) {k : Nat} (hk : k < 16) :
    Accepted r k ↔ ∀ c ∈ checks r, c.1 = k → c.2 = true := by
  refine ⟨fun h c hc hck => (check_iff_accepted r c hc).mpr (hck ▸ h), fun h => ?_⟩
  by_cases hchecked : k ∈ checkedFields
  · rw [← map_fst_checks r, List.mem_map] at hchecked
    obtain ⟨c, hc, rfl⟩ := hchecked
    exact (check_iff_accepted r c hc).mp (h c hc rfl)
  · have hunchecked : ∀ k < 16, k ∉ checkedFields → k = 6 ∨ k = 13 ∨ k = 15 := by decide
    rcases hunchecked k hk hchecked with rfl | rfl | rfl
    all_goals trivial

theorem fst_lt_of_mem_checks {r : NavRecord} {c : Nat × Bool} (hc : c ∈ checks r) : c.1 < 16 :=
  (by decide : ∀ k ∈ checkedFields, k < 16) c.1 (map_fst_checks r ▸ List.mem_map_of_mem hc)

/-- The checks are in field order (45_sentence_validator.md rule R303). -/
theorem pairwise_checks (r : NavRecord) : (checks r).Pairwise (·.1 < ·.1) :=
  List.pairwise_map.mp (by rw [map_fst_checks]; decide)

/-- VALIDATE accepts every field, or reports the first that is not accepted (45_sentence_validator.md rule R300). -/
theorem validate_cases (r : NavRecord) : (validate r = .ok true ∧ ∀ k, k < 16 → Accepted r k) ∨
    ∃ k, k < 16 ∧ ¬ Accepted r k ∧ (∀ j, j < k → Accepted r j) ∧
      validate r = .fault .fieldValidationFailure (BitVec.ofNat 8 k) := by
  cases h : (checks r).find? (fun c => !c.2) with
  | none =>
    refine .inl ⟨by rw [validate, h], fun k hk => (accepted_iff_forall_checks r hk).mpr fun c hc _ => ?_⟩
    simpa using List.find?_eq_none.mp h c hc
  | some c =>
    obtain ⟨hfails, before, after, hchecks, hbefore⟩ := List.find?_eq_some_iff_append.mp h
    have hc : c ∈ checks r := List.mem_of_find?_eq_some h
    refine .inr ⟨c.1, fst_lt_of_mem_checks hc, ?_, fun j hj => ?_, by rw [validate, h]⟩
    · rw [← check_iff_accepted r c hc]
      simpa using hfails
    · rw [accepted_iff_forall_checks r (hj.trans (fst_lt_of_mem_checks hc))]
      rintro d hd rfl
      have hpair := pairwise_checks r
      rw [hchecks, List.pairwise_append, List.pairwise_cons] at hpair
      obtain ⟨-, ⟨hafter, -⟩, -⟩ := hpair
      rw [hchecks, List.mem_append, List.mem_cons] at hd
      rcases hd with hd | rfl | hd
      · simpa using hbefore d hd
      · exact absurd hj (lt_irrefl _)
      · exact absurd hj (hafter d hd).asymm

/-- Settles O53: the first failing check is the lowest field that is not accepted. -/
theorem validateReportsTheLowestField : Obligations.ValidateReportsTheLowestField := by
  intro r
  rcases validate_cases r with ⟨hok, hall⟩ | ⟨k, hk, hnot, hbelow, hfault⟩
  · exact ⟨iff_of_true hok hall, fun k hk hnot => absurd (hall k hk) hnot⟩
  · refine ⟨iff_of_false (fun hok => ?_) fun hall => hnot (hall k hk), fun m hm hmnot hmbelow => ?_⟩
    · rw [hfault] at hok
      cases hok
    · have hmk : ¬ m < k := mt (hbelow m) hmnot
      have hkm : ¬ k < m := mt (hmbelow k) hnot
      rw [hfault, le_antisymm (not_lt.mp hmk) (not_lt.mp hkm)]

/-! ## The checks on a decoded block (45_sentence_validator.md rule R301) -/

theorem mkRat_le_intCast_iff {v m : Int} {d : Nat} (hd : 0 < d) : mkRat v d ≤ (m : Rat) ↔ v ≤ m * d := by
  rw [Rat.mkRat_eq_divInt, Rat.intCast_eq_divInt, Rat.divInt_le_divInt (Int.natCast_pos.mpr hd) Int.one_pos,
    Int.mul_one]

theorem intCast_le_mkRat_iff {v m : Int} {d : Nat} (hd : 0 < d) : (m : Rat) ≤ mkRat v d ↔ m * d ≤ v := by
  rw [Rat.mkRat_eq_divInt, Rat.intCast_eq_divInt, Rat.divInt_le_divInt Int.one_pos (Int.natCast_pos.mpr hd),
    Int.mul_one]

theorem sogValue_of_ne {u : Nat} (h22 : u ≠ 1022) (h23 : u ≠ 1023) : sogValue u = mkRat u 10 :=
  (if_neg h22).trans (if_neg h23)

theorem cogValue_of_ne {u : Nat} (h : u ≠ 3600) : cogValue u = mkRat u 10 := if_neg h

/-- Of the raw speeds only 1021, which is 102.1 knots, is refused (45_sentence_validator.md rule R301). -/
theorem sogValue_accepted_iff {u : Nat} (hu : u < 1024) :
    ((0 ≤ sogValue u ∧ sogValue u ≤ 102) ∨ sogValue u = 1022 ∨ sogValue u = 1023) ↔ u ≠ 1021 := by
  by_cases h22 : u = 1022
  · rw [h22]
    exact iff_of_true (.inr (.inl rfl)) (by decide)
  by_cases h23 : u = 1023
  · rw [h23]
    exact iff_of_true (.inr (.inr rfl)) (by decide)
  have hnonneg : 0 ≤ mkRat u 10 := (intCast_le_mkRat_iff (m := 0) (by decide)).mpr (by omega)
  have hle : mkRat u 10 ≤ 102 ↔ (u : Int) ≤ 102 * 10 := mkRat_le_intCast_iff (m := 102) (by decide)
  have hsmall : ¬ 1022 ≤ mkRat u 10 := mt (intCast_le_mkRat_iff (m := 1022) (by decide)).mp (by omega)
  have hne (q : Rat) (hq : 1022 ≤ q) : mkRat u 10 ≠ q := fun h => hsmall (h ▸ hq)
  rw [sogValue_of_ne h22 h23, hle, and_iff_right hnonneg, or_iff_left (not_or.mpr ⟨hne _ le_rfl, hne _ (by decide)⟩)]
  omega

/-- The raw courses above 360 degrees are refused (45_sentence_validator.md rule R301). -/
theorem cogValue_accepted_iff {u : Nat} (hu : u < 4096) :
    ((-360 ≤ cogValue u ∧ cogValue u ≤ 360) ∨ cogValue u = 3600) ↔ u ≤ 3600 := by
  by_cases h : u = 3600
  · rw [h]
    exact iff_of_true (.inr rfl) le_rfl
  have hge : -360 ≤ mkRat u 10 := (intCast_le_mkRat_iff (m := -360) (by decide)).mpr (by omega)
  have hle : mkRat u 10 ≤ 360 ↔ (u : Int) ≤ 360 * 10 := mkRat_le_intCast_iff (m := 360) (by decide)
  have hsmall : ¬ 3600 ≤ mkRat u 10 := mt (intCast_le_mkRat_iff (m := 3600) (by decide)).mp (by omega)
  have hne : mkRat u 10 ≠ 3600 := fun heq => hsmall heq.ge
  rw [cogValue_of_ne h, hle, and_iff_right hge, or_iff_left hne]
  omega

/-- A position in 1/600000 degree within whole degrees. -/
theorem position_accepted_iff (v lo hi : Int) :
    ((lo : Rat) ≤ mkRat v 600000 ∧ mkRat v 600000 ≤ (hi : Rat)) ↔ lo * 600000 ≤ v ∧ v ≤ hi * 600000 :=
  and_congr (intCast_le_mkRat_iff (by decide)) (mkRat_le_intCast_iff (by decide))

theorem rotValue_range {b : Bits} (hlen : b.length = 8) : -128 ≤ rotValue b ∧ rotValue b ≤ 128 := by
  have hlt := valU_lt b
  rw [hlen] at hlt
  rw [rotValue_eq_ite hlen]
  split_ifs <;> omega

/-- Field `k` of a block is below 2 to its width (30_encoding.md rule R80). -/
theorem valU_fieldBits_lt {b : Bits} (hlen : b.length = 168) {k : Nat} (hk : k < 16) :
    valU (fieldBits k b) < 2 ^ busWidth k :=
  (valU_lt _).trans_eq (by rw [length_fieldBits_eq_busWidth hlen hk])

/-- Settles O54: the components are the raw values, scaled for speed, course and position. -/
theorem validateOnDecodedBlocks : Obligations.ValidateOnDecodedBlocks := by
  rintro b hlen u hu lon lat rfl rfl
  have hlt {k : Nat} (hk : k < 16) : u k < 2 ^ busWidth k := (hu k hk).trans_lt (valU_fieldBits_lt hlen hk)
  have hvalue {k : Nat} (hk : k < 16) : valU (fieldBits k b) = u k := (hu k hk).symm
  refine ⟨recordOf b, navDec_eq_ok_iff.mpr ⟨hlen, rfl⟩, ?_, ?_, ?_, ?_, ?_, ?_, trivial, ?_, ?_, ?_, ?_, ?_, ?_,
    trivial, trivial, trivial⟩
  · rw [Accepted, recordOf_msgType, hvalue (by decide)]
  · rw [Accepted, recordOf_repeatInd, hvalue (by decide)]
  · rw [Accepted, recordOf_mmsi, hvalue (by decide)]
    omega
  · rw [Accepted, recordOf_navStatus, hvalue (by decide)]
    exact hlt (k := 3) (by decide)
  · exact rotValue_range (length_fieldBits_eq_busWidth hlen (k := 4) (by decide))
  · rw [Accepted, recordOf_sog, hvalue (by decide)]
    exact sogValue_accepted_iff (hlt (k := 5) (by decide))
  · exact position_accepted_iff (valS (fieldBits 7 b)) (-180) 181
  · exact position_accepted_iff (valS (fieldBits 8 b)) (-90) 91
  · rw [Accepted, recordOf_cog, hvalue (by decide)]
    exact cogValue_accepted_iff (hlt (k := 9) (by decide))
  · rw [Accepted, recordOf_hdg, hvalue (by decide)]
  · rw [Accepted, recordOf_ts, hvalue (by decide)]
    omega
  · rw [Accepted, recordOf_maneuver, hvalue (by decide)]
    omega

/-! ## The whole-message procedures (45_sentence_validator.md rules R310 to R312) -/

section

variable {p : Params} {x : Bits}

/-- A block is within the limits of the sentence layer (45_sentence_validator.md rule R283). -/
theorem limits_of_carriesBlocks (hp : CarriesBlocks p) (hlen : x.length = 168) :
    x.length ≤ p.bitsMax ∧ 15 + (x.length + 5) / 6 ≤ p.bodyMax := by
  obtain ⟨hbits, hbody⟩ := hp
  rw [hlen]
  exact ⟨hbits, hbody⟩

/-- DECODE.MSG without its VALIDATE line gives the record of the block that SENT.ENC framed (45_sentence_validator.md
rule R311). -/
theorem decodeMsgRaw_sentenceOfBody_armorChars (hp : CarriesBlocks p) (hlen : x.length = 168) :
    decodeMsgRaw p (sentenceOfBody (frameBody (armorChars x))) = .ok (recordOf x) := by
  obtain ⟨hbits, hbody⟩ := limits_of_carriesBlocks hp hlen
  have hmul : x.length % 6 = 0 := by rw [hlen]
  rw [decodeMsgRaw, sentDec_sentenceOfBody_armorChars hbody, OpOutcome.andThen_ok,
    armorDec_of_armorEnc_ok hmul (armorEnc_eq_ok hbits), OpOutcome.andThen_ok, require_decide, if_pos hlen,
    navDec_eq_ok_iff]
  exact ⟨hlen, rfl⟩

end

/-- Settles O56: NAV.ENC gives a block, the sentence layer and the armor give it back, and VALIDATE accepts its record
or reports a field. -/
theorem messageRoundTrip : Obligations.MessageRoundTrip := by
  intro p x hp hfit
  have hlen : (assemble (rawFields x)).length = 168 := length_assemble rfl
  obtain ⟨hbits, hbody⟩ := limits_of_carriesBlocks hp hlen
  have hdecode := decodeMsgRaw_sentenceOfBody_armorChars hp hlen
  refine ⟨_, _, _, navEnc_of_allFit p hfit, ?_, navDec_eq_ok_iff.mpr ⟨hlen, rfl⟩, hdecode, ?_⟩
  · rw [encodeMsg, navEnc_of_allFit p hfit, OpOutcome.andThen_ok, sentEnc_eq_ok hbits hbody]
  · rw [decodeMsg, hdecode, OpOutcome.andThen_ok]
    rcases validate_cases (recordOf (assemble (rawFields x))) with ⟨hok, -⟩ | ⟨k, -, -, -, hfault⟩
    · exact .inl ⟨hok, by rw [hok, OpOutcome.map_ok]⟩
    · exact .inr ⟨_, hfault, by rw [hfault, OpOutcome.map_fault]⟩

end Sys2Proof.Machine
end

section
/-! The requester's duties (70_reset_and_hazards.md): a host that keeps its inputs in range has round trips that
validate. -/

namespace Sys2Proof.Machine

/-! ## The raw values of a record in range (70_reset_and_hazards.md rule R373) -/

/-- Truncation stays within integer bounds (00_scope.md rule R16). -/
theorem trunc_between {q : Rat} {lo hi : Int} (hlo : (lo : Rat) ≤ q) (hhi : q ≤ hi) : lo ≤ trunc q ∧ trunc q ≤ hi := by
  rcases le_or_gt 0 q with hsign | hsign
  · obtain ⟨hle, hlt, -⟩ := trunc_of_nonneg hsign
    exact ⟨Int.lt_add_one_iff.mp (by exact_mod_cast hlo.trans_lt hlt), by exact_mod_cast hle.trans hhi⟩
  · obtain ⟨hge, hgt, -⟩ := trunc_of_neg hsign
    exact ⟨by exact_mod_cast hlo.trans hge, Int.sub_one_lt_iff.mp (by exact_mod_cast hgt.trans_le hhi)⟩

/-- The raw value of a quantity within whole units is within their multiples (43_navblock_encode.md rule R207). -/
theorem trunc_mul_between {k : Nat} {q : Rat} {lo hi : Int} (hlo : (lo : Rat) ≤ q) (hhi : q ≤ hi) :
    k * lo ≤ trunc (k * q) ∧ trunc (k * q) ≤ k * hi :=
  trunc_between (by exact_mod_cast mul_le_mul_of_nonneg_left hlo k.cast_nonneg)
    (by exact_mod_cast mul_le_mul_of_nonneg_left hhi k.cast_nonneg)

/-- The raw value of a speed in range: tenths up to 102 knots, or a sentinel (45_sentence_validator.md rule R301). -/
theorem rawSpeed_between {q : Rat} (h : 0 ≤ q ∧ q ≤ 102 ∨ q = 1022 / 10 ∨ q = 1023 / 10) :
    0 ≤ trunc (10 * q) ∧ trunc (10 * q) ≤ 1020 ∨ trunc (10 * q) = 1022 ∨ trunc (10 * q) = 1023 := by
  rcases h with ⟨hlo, hhi⟩ | rfl | rfl
  · exact .inl (trunc_mul_between (k := 10) (lo := 0) (hi := 102) hlo hhi)
  · exact .inr (.inl (by decide +kernel))
  · exact .inr (.inr (by decide +kernel))

/-- The ranges of the raw values of a record in range: what VALIDATE accepts (45_sentence_validator.md rule R301), and
of a field that needs no narrower range, what the field holds. -/
def ValidatingRaw (k : Nat) (f : Int) : Prop :=
  match k with
  | 0 => f = 1
  | 1 => f = 0
  | 2 => 100000 ≤ f ∧ f ≤ 999999999
  | 5 => 0 ≤ f ∧ f ≤ 1020 ∨ f = 1022 ∨ f = 1023
  | 7 => -108000000 ≤ f ∧ f ≤ 108600000
  | 8 => -54000000 ≤ f ∧ f ≤ 54600000
  | 9 => 0 ≤ f ∧ f ≤ 3600
  | 10 => 0 ≤ f ∧ f ≤ 359 ∨ f = 511
  | 11 => 1 ≤ f ∧ f ≤ 62
  | 12 => 0 ≤ f ∧ f ≤ 2
  | _ => FieldFits k f

theorem validatingRaw_of_validatingInput {x : NavInput} (h : ValidatingInput x) {k : Nat} (hk : k < 16) :
    ValidatingRaw k (rawValue x k) := by
  obtain ⟨hmmsi, hstatus, hrot, hspeed, ⟨hlonLo, hlonHi⟩, ⟨hlatLo, hlatHi⟩, ⟨hcogLo, hcogHi⟩, hheading, hts, hmaneuver,
    hspare, hradio⟩ := h
  interval_cases k
  · rfl
  · rfl
  · exact hmmsi
  · exact hstatus
  · exact hrot
  · exact rawSpeed_between hspeed
  · trivial
  · exact trunc_mul_between (k := 600000) (lo := -180) (hi := 181) hlonLo hlonHi
  · exact trunc_mul_between (k := 600000) (lo := -90) (hi := 91) hlatLo hlatHi
  · exact trunc_mul_between (k := 10) (lo := 0) (hi := 360) hcogLo hcogHi
  · exact hheading
  · exact hts
  · exact hmaneuver
  · exact hspare
  · trivial
  · exact hradio

/-- No range is wider than its field (43_navblock_encode.md rule R203). -/
theorem fieldFits_of_validatingRaw {k : Nat} {f : Int} (h : ValidatingRaw k f) : FieldFits k f := by
  unfold ValidatingRaw at h
  split at h
  case h_11 => exact h
  all_goals simp only [FieldFits]
  all_goals omega

theorem allFit_of_validatingInput {x : NavInput} (h : ValidatingInput x) : AllFit x := fun _ hk =>
  fieldFits_of_validatingRaw (validatingRaw_of_validatingInput h hk)

/-! ## VALIDATE on the record of the assembled block -/

/-- NAV.DEC unpacks the raw values that NAV.ENC packed, and in their ranges VALIDATE accepts every component
(45_sentence_validator.md rule R301). -/
theorem accepted_of_validatingInput {x : NavInput} (h : ValidatingInput x) {k : Nat} (hk : k < 16) :
    Accepted (recordOf (assemble (rawFields x))) k := by
  have hlen : (assemble (rawFields x)).length = 168 := length_assemble rfl
  have hfit := allFit_of_validatingInput h
  have hU (j : Nat) (hj : j < 16 ∧ fieldSort j = .unsigned) :
      ValidatingRaw j (valU (fieldBits j (assemble (rawFields x)))) := by
    rw [valU_assemble hfit j hj]
    exact validatingRaw_of_validatingInput h hj.1
  have hS (j : Nat) (hj : j < 16 ∧ fieldSort j = .signed) :
      ValidatingRaw j (valS (fieldBits j (assemble (rawFields x)))) := by
    rw [valS_assemble hfit j hj]
    exact validatingRaw_of_validatingInput h hj.1
  obtain ⟨r, hr, hmsgType, hrepeat, hmmsi, hstatus, hrot, hsog, hposAcc, hlon, hlat, hcog, hhdg, hts, hmaneuver, hspare,
    hraim, hradio⟩ := validateOnDecodedBlocks _ hlen _ (fun _ _ => rfl) _ _ rfl rfl
  obtain ⟨-, rfl⟩ := navDec_eq_ok_iff.mp hr
  interval_cases k
  · exact hmsgType.mpr (.inl (Int.ofNat.inj (hU 0 (by decide))))
  · exact hrepeat.mpr (Int.ofNat.inj (hU 1 (by decide)))
  · exact hmmsi.mpr ((hU 2 (by decide)).imp Int.ofNat_le.mp Int.ofNat_le.mp)
  · exact hstatus
  · exact hrot
  · have hrange := hU 5 (by decide)
    simp only [ValidatingRaw] at hrange
    exact hsog.mpr (by omega)
  · exact hposAcc
  · exact hlon.mpr (hS 7 (by decide))
  · exact hlat.mpr (hS 8 (by decide))
  · exact hcog.mpr (Int.ofNat_le.mp (hU 9 (by decide)).2)
  · have hrange := hU 10 (by decide)
    simp only [ValidatingRaw] at hrange
    exact hhdg.mpr (by omega)
  · exact hts.mpr ((hU 11 (by decide)).imp Int.ofNat_le.mp Int.ofNat_le.mp)
  · exact hmaneuver.mpr (Int.ofNat_le.mp (hU 12 (by decide)).2)
  · exact hspare
  · exact hraim
  · exact hradio

theorem validate_of_validatingInput {x : NavInput} (h : ValidatingInput x) :
    validate (recordOf (assemble (rawFields x))) = .ok true :=
  (validateReportsTheLowestField _).1.mpr fun _ hk => accepted_of_validatingInput h hk

/-- Settles O57: every field of such a record fits, so its message round trip gives the record of its block, and
VALIDATE, which accepts that record, reports no field. -/
theorem dutifulMessagesValidate : Obligations.DutifulMessagesValidate := by
  intro p x hp h
  obtain ⟨e, snt, r, hnavEnc, hencode, hnavDec, -, hvalidate⟩ := messageRoundTrip p x hp (allFit_of_validatingInput h)
  rcases hvalidate with ⟨-, hdecode⟩ | ⟨info, hfault, -⟩
  · exact ⟨snt, r, hencode, hdecode⟩
  · obtain ⟨-, rfl⟩ := navDec_eq_ok_iff.mp hnavDec
    rw [eq_of_navEnc_ok hnavEnc, validate_of_validatingInput h] at hfault
    cases hfault

end Sys2Proof.Machine
end

section
/-! The request ports (10_state.md section 2): the host drives and the block reads the same request. -/

namespace Sys2Proof

/-! A pause, which states nothing: Lean elaborates the proofs of one text in parallel, and the kernel's evaluation below
waits until the declarations above are checked. Begun together with them, the proofs that follow overrun the memory the
check allows. -/

example : True := by decide +kernel

/-- The limits of legal parameters, by name (log entry 14). -/
theorem Params.limits_of_wf {p : Params} (h : p.wf = true) :
    1 ≤ p.valueW ∧ (1 ≤ p.wmax ∧ p.wmax ≤ 63) ∧ (1 ≤ p.rotInW ∧ p.rotInW ≤ 18) ∧
      (0 < p.degDen ∧ 0 < p.sogDen ∧ 0 < p.cogDen) ∧ p.bitsMax ≤ 255 ∧ p.bodyMax ≤ 255 := by
  simpa only [Params.wf, Bool.and_eq_true, decide_eq_true_eq, and_assoc] using h

theorem toNat_cmd (i : Instr) : 0 < i.cmd.toNat ∧ i.cmd.toNat < 0x0A := by cases i <;> decide

/-- A byte outside 0x01 to 0x09 decodes to nothing (30_encoding.md rule R104). -/
theorem exists_decodeCmd_error {c : Byte} (h : c = 0x00#8 ∨ 0x0A ≤ c.toNat) : ∃ e, decodeCmd c = .error e := by
  cases hd : decodeCmd c with
  | error e => exact ⟨e, rfl⟩
  | ok i =>
    obtain rfl := cmd_of_decodeCmd hd
    obtain ⟨hpos, hlt⟩ := toNat_cmd i
    rcases h with h | h
    · rw [h] at hpos
      exact absurd hpos (by decide)
    · exact absurd hlt (Nat.not_lt.mpr h)

end Sys2Proof

namespace Sys2Proof.Machine

/-! ## Which request stands on the ports (30_encoding.md rules R102 and R104) -/

theorem requestOn_of_cmd {p : Params} {r : RequestPorts} {i : Instr} (h : r.cmd = i.cmd) :
    requestOn p r = readRequest p r i := by
  rw [requestOn, h, decodeCmd_cmd]

theorem requestOn_of_reserved {p : Params} {r : RequestPorts} (h : r.cmd = 0x00#8 ∨ 0x0A ≤ r.cmd.toNat) :
    requestOn p r = .reserved r.cmd := by
  obtain ⟨e, he⟩ := exists_decodeCmd_error h
  rw [requestOn, he]

/-! ## Reading what was driven, port by port (10_state.md rules R38 and R39) -/

theorem toNat_ofNat_of_lt {w n : Nat} (h : n < 2 ^ w) : (BitVec.ofNat w n).toNat = n := by
  rw [BitVec.toNat_ofNat, Nat.mod_eq_of_lt h]

/-- A bit sequence is read back from the bus and the count port that carry it. -/
theorem bitsOf_ports {b : Bits} {width w : Nat} (hbus : valU b < 2 ^ width) (hcount : b.length < 2 ^ w) :
    bitsOf (valU b % 2 ^ width) (BitVec.ofNat w b.length).toNat = b := by
  rw [toNat_ofNat_of_lt hcount, bitsOf_driven hbus]

/-- A byte sequence is read back from the lanes and the count port that carry it. -/
theorem lanes_ports {c : Bytes} {w : Nat} (hcount : c.length < 2 ^ w) :
    lanes (laneBus c) (BitVec.ofNat w c.length).toNat = c := by
  rw [toNat_ofNat_of_lt hcount, lanes_laneBus]

/-- The operands of NAV.ENC are read back from their ports (10_state.md rule R39). -/
theorem navIn_driveRequest {p : Params} {x : NavInput} (hp : p.wf = true) (hx : x.onPorts p = true) :
    navIn p (driveRequest p (.navEnc x)) = x := by
  obtain ⟨hvalueW, -, ⟨hrotInW, -⟩, ⟨hdegDen, hsogDen, hcogDen⟩, -⟩ := Params.limits_of_wf hp
  simp only [NavInput.onPorts, Bool.and_eq_true, and_assoc] at hx
  obtain ⟨hmmsi, hstatus, hrot, hsog, hlon, hlat, hcog, hhdg, hts, hmaneuver, hspare, hradio⟩ := hx
  exact (NavInput.mk.injEq ..).mpr ⟨signedBus_driveSigned hvalueW hmmsi, signedBus_driveSigned hvalueW hstatus,
    signedBus_driveSigned hrotInW hrot, mkRat_driven hvalueW hsogDen hsog, rfl, mkRat_driven hvalueW hdegDen hlon,
    mkRat_driven hvalueW hdegDen hlat, mkRat_driven hvalueW hcogDen hcog, signedBus_driveSigned hvalueW hhdg,
    signedBus_driveSigned hvalueW hts, signedBus_driveSigned hvalueW hmaneuver, signedBus_driveSigned hvalueW hspare,
    rfl, signedBus_driveSigned hvalueW hradio⟩

/-- A block is read back from its 168 wires. -/
theorem bitsOf_block {b : Bits} (h : b.length = 168) : bitsOf (BitVec.ofNat 168 (valU b)).toNat 168 = b := by
  rw [BitVec.toNat_ofNat, bitsOf_mod, ← h, bitsOf_valU]

theorem decide_and_decide_iff {a b : Prop} [Decidable a] [Decidable b] :
    (decide a && decide b) = true ↔ a ∧ b := by
  rw [Bool.and_eq_true, decide_eq_true_eq, decide_eq_true_eq]

/-- Settles O8, by the operation: the command byte selects it, and each of its ports gives its operand back. -/
theorem portsCarryEveryRequest : Obligations.PortsCarryEveryRequest := by
  intro p r hp hr
  cases r with
  | pack v w =>
    obtain ⟨hvalueW, -⟩ := Params.limits_of_wf hp
    obtain ⟨hvalue, hwidth⟩ := (Bool.and_eq_true ..).mp hr
    exact (requestOn_of_cmd (i := .pack) rfl).trans (congrArg₂ Request.pack (signedBus_driveSigned hvalueW hvalue)
      (toNat_ofNat_of_lt (of_decide_eq_true hwidth)))
  | unpackU b =>
    obtain ⟨hcount, hbus⟩ := decide_and_decide_iff.mp hr
    exact (requestOn_of_cmd (i := .unpackU) rfl).trans (congrArg Request.unpackU (bitsOf_ports hbus hcount))
  | unpackS b =>
    obtain ⟨hcount, hbus⟩ := decide_and_decide_iff.mp hr
    exact (requestOn_of_cmd (i := .unpackS) rfl).trans (congrArg Request.unpackS (bitsOf_ports hbus hcount))
  | unpackRot b =>
    obtain ⟨hcount, hbus⟩ := decide_and_decide_iff.mp hr
    exact (requestOn_of_cmd (i := .unpackRot) rfl).trans (congrArg Request.unpackRot (bitsOf_ports hbus hcount))
  | armorEnc b =>
    obtain ⟨hcount, hbus⟩ := decide_and_decide_iff.mp hr
    exact (requestOn_of_cmd (i := .armorEnc) rfl).trans (congrArg Request.armorEnc (bitsOf_ports hbus hcount))
  | armorDec c =>
    obtain ⟨hcount, -⟩ := decide_and_decide_iff.mp hr
    exact (requestOn_of_cmd (i := .armorDec) rfl).trans (congrArg Request.armorDec (lanes_ports hcount))
  | csum c =>
    obtain ⟨hcount, -⟩ := decide_and_decide_iff.mp hr
    exact (requestOn_of_cmd (i := .csum) rfl).trans (congrArg Request.csum (lanes_ports hcount))
  | navEnc x =>
    exact (requestOn_of_cmd (i := .navEnc) rfl).trans (congrArg Request.navEnc (navIn_driveRequest hp hr))
  | navDec b =>
    exact (requestOn_of_cmd (i := .navDec) rfl).trans (congrArg Request.navDec (bitsOf_block (of_decide_eq_true hr)))
  | reserved c =>
    rw [Request.onPorts, Bool.or_eq_true, decide_eq_true_eq, decide_eq_true_eq] at hr
    exact requestOn_of_reserved hr

/-- Settles O9, by the upper half of the low wires. -/
theorem signedPortReadsTwosComplement : Obligations.SignedPortReadsTwosComplement := by
  intro width bus hpos
  rw [signedBus, valS_eq_ite _ (by rwa [length_bitsOf]), length_bitsOf, valU_bitsOf]
  by_cases hlow : bus % 2 ^ width < 2 ^ (width - 1)
  · rw [if_pos hlow, if_neg (Nat.not_le.mpr hlow)]
  · rw [if_neg hlow, if_pos (Nat.not_lt.mp hlow), Nat.cast_pow, Nat.cast_ofNat]

end Sys2Proof.Machine
end

section
/-! One transaction (00_scope.md section 3, 60_exceptions.md sections 3 and 4): the decoder, the step and its frame, the
answer of a program, reset. -/

namespace Sys2Proof

/-! A pause as before the request ports, and for its reason. -/

example : True := by decide +kernel

/-- Settles O7: the encoding is the operation's own byte, and only that byte decodes to it. -/
theorem decodeAndEncodeAgree : Obligations.DecodeAndEncodeAgree := by
  refine ⟨fun i rest => ?_, fun bytes i rest h => ?_⟩
  · rw [encode, List.singleton_append, decode, decodeCmd_cmd]
  · cases bytes with
    | nil => cases h
    | cons c tail =>
      cases hd : decodeCmd c with
      | error e => simp [decode, hd] at h
      | ok j =>
        simp only [decode, hd, Except.ok.injEq, Prod.mk.injEq] at h
        obtain ⟨rfl, rfl⟩ := h
        rw [encode, ← cmd_of_decodeCmd hd, List.singleton_append]

/-- The three groups of 30_encoding.md rule R104 are the bytes outside 0x01 to 0x09. -/
theorem reserved_of_groups {c : Byte} (h : c = 0x00#8 ∨ (0x0A ≤ c.toNat ∧ c.toNat ≤ 0x0F) ∨ c.extractLsb 7 4 ≠ 0#4) :
    c = 0x00#8 ∨ 0x0A ≤ c.toNat := by
  refine h.imp_right fun h => h.elim And.left fun hupper => ?_
  have hhigh : (c.extractLsb 7 4).toNat ≠ 0 := fun hzero => hupper (BitVec.eq_of_toNat_eq hzero)
  rw [Machine.toNat_high_half] at hhigh
  omega

end Sys2Proof

namespace Sys2Proof.Machine

/-! ## The step -/

/-- Settles O1: the step accepts the request and runs the operation its command byte decodes to. -/
theorem stepRunsDecodedOperation : Obligations.StepRunsDecodedOperation := by
  intro s r rest i hpending hdecode
  have hcmd : [r.cmd] = encode i ++ [] := decodeAndEncodeAgree.2 _ _ _ hdecode
  obtain ⟨hcmd, -⟩ := List.cons.inj hcmd
  simp only [step, hpending, hcmd, decodeCmd_cmd]
  rfl

/-- The answer to a reserved command byte (60_exceptions.md rule R327). -/
theorem answer_of_reserved {p : Params} {r : RequestPorts} (h : r.cmd = 0x00#8 ∨ 0x0A ≤ r.cmd.toNat) :
    answer p r = ⟨0x10#8, r.cmd, none⟩ := by
  rw [answer, requestOn_of_reserved h]
  rfl

/-- Settles O2: a reserved byte stands for the reserved request. -/
theorem reservedCommandIsIllegalOperation : Obligations.ReservedCommandIsIllegalOperation := by
  intro s r rest hpending hreserved
  rw [step_cons s r rest hpending, answer_of_reserved (reserved_of_groups hreserved)]

/-- Settles O3. -/
theorem idleStepChangesNothing : Obligations.IdleStepChangesNothing := step_nil

/-- Settles O10: the word placed is the operation's command byte, so its step is the step of that operation. -/
theorem fetchWordRunsItsOperation : Obligations.FetchWordRunsItsOperation := by
  intro s i
  have hword : BitVec.ofNat 8 (i.cmd.toNat % 2 ^ 8) = i.cmd := by
    rw [Nat.mod_eq_of_lt i.cmd.isLt, BitVec.ofNat_toNat, BitVec.setWidth_eq]
  have hdecode : decode [i.cmd] = .ok (i, []) := decodeAndEncodeAgree.1 i []
  have hpending := State.withFetchWord_pending s 8 i.cmd.toNat
  rw [hword] at hpending
  exact stepRunsDecodedOperation _ _ _ i hpending hdecode

/-! ## The frame and the response of an operation -/

/-- Settles O13: every operation delivers its outcome and does nothing else. -/
theorem operationsChangeOnlyTheResponse : Obligations.OperationsChangeOnlyTheResponse := fun i s =>
  ⟨_, exec_eq_next i s, rfl, rfl, rfl, Option.some_ne_none _⟩

/-- Delivery (60_exceptions.md rule R330): a result comes with status OK and info 0, a fault with no result. -/
theorem responseOf_cases (o : OpOutcome Result) :
    ((responseOf o).status = 0x00#8 ∧ (responseOf o).info = 0x00#8 ∧ (responseOf o).result ≠ none) ∨
      ((responseOf o).status ≠ 0x00#8 ∧ (responseOf o).result = none) := by
  cases o with
  | ok r => exact .inl ⟨rfl, rfl, Option.some_ne_none _⟩
  | fault k info => exact .inr ⟨k.status_ne_ok, rfl⟩

/-- Settles O15, by the two kinds of outcome. -/
theorem resultExactlyWhenStatusOk : Obligations.ResultExactlyWhenStatusOk := fun i s =>
  ⟨_, _, exec_eq_next i s, rfl, responseOf_cases _⟩

/-! ## Statelessness (10_state.md rules R30 and R36) -/

/-- Settles O11: both steps show the answer to the one request. -/
theorem equalRequestsHaveEqualResponses : Obligations.EqualRequestsHaveEqualResponses := by
  intro s t r q rs qs hparams hs ht hrequest
  refine ⟨_, _, step_cons s r rs hs, step_cons t q qs ht, ?_, Option.some_ne_none _⟩
  rw [answer, answer, hrequest, hparams]

/-- A run goes on from the state its first step answers. -/
theorem run_succ_of_step {s t : State} (h : step s = .next t) (n : Nat) :
    Host.Core.run Sys2Proof.core (n + 1) s = Host.Core.run Sys2Proof.core n t := by
  have hstep : Sys2Proof.core.step s = .next t := h
  simp only [Host.Core.run, hstep]

/-- Settles O12, by induction on the number of requests answered before. -/
theorem programIsAnsweredRequestByRequest : Obligations.ProgramIsAnsweredRequestByRequest := by
  intro n
  induction n with
  | zero =>
    intro s r hr
    obtain ⟨rest, hpending⟩ : ∃ rest, s.pending = r :: rest := by
      rw [← List.head?_eq_getElem?] at hr
      exact List.head?_eq_some_iff.mp hr
    refine ⟨_, run_succ_of_step (step_cons s r rest hpending) 0, rfl, rfl, rfl, ?_⟩
    rw [hpending]
    rfl
  | succ n ih =>
    intro s r hr
    cases hpending : s.pending with
    | nil => simp [hpending] at hr
    | cons q rest =>
      rw [hpending, List.getElem?_cons_succ] at hr
      obtain ⟨t, hrun, ht⟩ := ih (State.mk s.params rest q (some (answer s.params q))) r hr
      exact ⟨t, (run_succ_of_step (step_cons s q rest hpending) (n + 1)).trans hrun, ht⟩

/-! ## Reset (10_state.md section 4, 70_reset_and_hazards.md section 1) -/

/-- Settles O4. -/
theorem resetHasDefaultsAndNoResponse : Obligations.ResetHasDefaultsAndNoResponse :=
  ⟨State.reset_params, State.reset_pending, State.reset_response⟩

/-- Without a response the invariant asks for legal parameters only. -/
theorem inv_of_response_none {s : State} (hp : s.params.wf = true) (h : s.response = none) : Inv s :=
  ⟨hp, fun r hr => absurd (h.symm.trans hr) (Option.some_ne_none r).symm⟩

/-- Settles O17: the default parameters are legal. -/
theorem resetMeetsInvariant : Obligations.ResetMeetsInvariant :=
  inv_of_response_none (by decide) State.reset_response

/-- A step with a request pending depends on the parameters and the program only. -/
theorem step_congr {s t : State} (hparams : s.params = t.params) (hpending : s.pending = t.pending)
    (hne : t.pending ≠ []) : step s = step t := by
  obtain ⟨r, rest, ht⟩ := List.exists_cons_of_ne_nil hne
  rw [step_cons s r rest (hpending.trans ht), step_cons t r rest ht, hparams]

/-- Settles O58: a reset changes neither the parameters nor the program, and a step depends on nothing else. -/
theorem parametersSurviveReset : Obligations.ParametersSurviveReset :=
  ⟨fun p => ⟨State.resetOf_params p, fun hp => inv_of_response_none hp (State.resetOf_response p)⟩, fun s =>
    ⟨s.afterReset_params, s.afterReset_response, fun hs => inv_of_response_none hs.1 s.afterReset_response,
      step_congr s.afterReset_params s.afterReset_pending⟩⟩

end Sys2Proof.Machine
end

section
/-! The UNPACK operations on a narrow bus, off the Rate-of-Turn exception, and over abstract sequences
(40_bitfield_codec.md sections 1 and 3). -/

namespace Sys2Proof.Machine

/-! A pause as before the request ports, and for its reason. -/

example : True := by decide +kernel

/-- Settles O22: a width of 8 is above `WMAX`. -/
theorem unpackRotOnANarrowInstance : Obligations.UnpackRotOnANarrowInstance := by
  intro s hnarrow
  rw [exec_unpackRot_eq, unpackRot_eq, length_bitsIn, if_neg (by omega), OpOutcome.map_fault, responseOf_widthOutOfRange]

/-! ## The Rate-of-Turn exception (40_bitfield_codec.md rules R140 and R141) -/

theorem eq_of_valU_eq_128 {b : Bits} (hlen : b.length = 8) (h : valU b = 128) :
    b = [true, false, false, false, false, false, false, false] := valU_injective hlen h

/-- The Rate of Turn is never −128 (40_bitfield_codec.md rule R141). -/
theorem neg_127_le_rotValue {b : Bits} (hlen : b.length = 8) : -127 ≤ rotValue b := by
  have hlt := valU_lt b
  rw [hlen] at hlt
  rw [rotValue_eq_ite hlen]
  split_ifs <;> omega

/-- Settles O26: off the value 128 the Rate of Turn is the two's-complement value. -/
theorem rotExceptionIsTheOnlyDifference : Obligations.RotExceptionIsTheOnlyDifference := by
  intro p b hmax hlen
  have hrot : unpackRot p b = .ok (rotValue b) := by rw [unpackRot_eq, hlen, if_pos ⟨rfl, hmax⟩]
  refine ⟨fun hne => ?_, rotValue b, hrot, neg_127_le_rotValue hlen, (rotValue_range hlen).2⟩
  have h128 : valU b ≠ 128 := fun h => hne (eq_of_valU_eq_128 hlen h)
  rw [hrot, unpackS_eq, hlen, if_pos ⟨by decide, hmax⟩, rotValue, if_neg h128]

/-! ## UNPACK over abstract sequences (40_bitfield_codec.md rule R130) -/

theorem unpackUSeq_eq (b : Bits) : unpackUSeq b = if 1 ≤ b.length then .ok (valU b : Int)
    else .fault .widthOutOfRange (BitVec.ofNat 8 b.length) := require_decide _ _ _ _

theorem unpackSSeq_eq (b : Bits) : unpackSSeq b = if 1 ≤ b.length then .ok (valS b)
    else .fault .widthOutOfRange (BitVec.ofNat 8 b.length) := require_decide _ _ _ _

theorem unpackRotSeq_eq (b : Bits) : unpackRotSeq b = if b.length = 8 then .ok (rotValue b)
    else .fault .widthOutOfRange (BitVec.ofNat 8 b.length) := require_decide _ _ _ _

/-- Within `WMAX` the limited operations have the abstract outcomes. -/
theorem unpack_of_le {p : Params} {b : Bits} (h : b.length ≤ p.wmax) :
    unpackU p b = unpackUSeq b ∧ unpackS p b = unpackSSeq b ∧ unpackRot p b = unpackRotSeq b :=
  ⟨widthLimit_le p b _ h, widthLimit_le p b _ h, widthLimit_le p b _ h⟩

theorem eq_ofNat_of_toNat_eq_mod {info : Byte} {n : Nat} (h : info.toNat = n % 256) : info = BitVec.ofNat 8 n :=
  BitVec.eq_of_toNat_eq (by rw [h, BitVec.toNat_ofNat])

/-- Settles O59: over abstract sequences each operation has its own check only, and the limit `WMAX` stands in front. -/
theorem unpackOverAbstractSequences : Obligations.UnpackOverAbstractSequences := by
  intro b
  refine ⟨?_, ?_, fun hlen info hinfo => ?_, ?_, fun p => ⟨unpack_of_le, fun hgt info hinfo => ?_⟩⟩
  · rintro rfl
    exact ⟨rfl, rfl⟩
  · rintro u hpos rfl
    rw [unpackUSeq_eq, unpackSSeq_eq, if_pos hpos, if_pos hpos, valS_eq_ite_testBit hpos]
    exact ⟨rfl, rfl⟩
  · rw [unpackRotSeq_eq, if_neg hlen, eq_ofNat_of_toNat_eq_mod hinfo]
  · rintro hlen u rfl
    rw [unpackRotSeq_eq, if_pos hlen, rotValue_eq_ite hlen]
  · rw [eq_ofNat_of_toNat_eq_mod hinfo]
    exact ⟨widthLimit_gt p b _ hgt, widthLimit_gt p b _ hgt, widthLimit_gt p b _ hgt⟩

end Sys2Proof.Machine
end

section
/-! ARMOR.ENC and ARMOR.DEC on their ports, the length tests of DECODE.MSG, and the block over abstract sequences
(41_sixbit_armor.md, 45_sentence_validator.md section 5). -/

namespace Sys2Proof.Machine

/-! A pause as before the request ports, and for its reason. -/

example : True := by decide +kernel

/-! ## Groups of six bits as digits of the value -/

/-- A slice of a sequence is made of the binary digits of its value (00_scope.md rules R13 and R14). -/
theorem valU_slice {b : Bits} {i width low : Nat} (h : i + (width + low) = b.length) :
    valU (slice b i (i + width)) = valU b / 2 ^ low % 2 ^ width := by
  have hslice : slice b i (i + width) = ((bitsOf (valU b) (i + (width + low))).drop i).take width := by
    rw [h, bitsOf_valU, slice, Nat.add_sub_cancel_left]
  rw [hslice, drop_bitsOf, take_bitsOf, valU_bitsOf, Nat.shiftRight_eq_div_pow]

theorem valU_append_zeros (b : Bits) (n : Nat) : valU (b ++ zeros n) = valU b * 2 ^ n := by
  rw [valU_append, zeros, valU_replicate_false, List.length_replicate, Nat.add_zero]

theorem two_pow_six_mul (n : Nat) : 2 ^ (6 * n) = 64 ^ n := pow_mul 2 6 n

/-- Symbol `j` is that of base-64 digit `m − 1 − j` of the padded value (41_sixbit_armor.md rule R162). -/
theorem getElem_armorChars {x : Bits} {n m j : Nat} (hn : x.length = n) (hm : (n + 5) / 6 = m) (hj : j < m) :
    (armorChars x)[j]'(by rw [length_armorChars, hn, hm]; exact hj) =
      sym (valU x * 2 ^ (6 * m - n) / 64 ^ (m - 1 - j) % 64) := by
  have hlen : (x ++ zeros (padCount x.length)).length = 6 * m := by rw [length_append_pad, hn, hm]
  have hpad : padCount x.length = 6 * m - n := by
    rw [List.length_append, zeros, List.length_replicate, hn] at hlen
    rw [hn]
    omega
  rw [List.getElem_of_eq (armorChars_eq_map x), List.getElem_map, List.getElem_range,
    valU_slice (low := 6 * (m - 1 - j)) (by rw [hlen]; omega), valU_append_zeros, hpad, two_pow_six_mul]
  rfl

theorem getElem_lanes {bus n j : Nat} (hj : j < n) : (lanes bus n)[j]'(by rwa [length_lanes]) = lane bus j := by
  simp [lanes]

theorem mem_lanes_iff {bus n : Nat} {c : Byte} : c ∈ lanes bus n ↔ ∃ j < n, lane bus j = c := by
  simp [lanes]

/-! ## What the two operations deliver (60_exceptions.md rule R330) -/

theorem exec_armorEnc_eq (s : State) : exec .armorEnc s = .next { s with response := some (responseOf
    ((armorEnc s.params (abitsIn s.params s.request)).map .chars)) } := exec_eq_next .armorEnc s

theorem exec_armorDec_eq (s : State) : exec .armorDec s = .next { s with response := some (responseOf
    ((armorDec s.params (charsIn s.request)).map .abits)) } := exec_eq_next .armorDec s

theorem responseOf_lengthOutOfRange (info : Byte) :
    responseOf (.fault .lengthOutOfRange info) = ⟨0x12#8, info, none⟩ := rfl

theorem responseOf_armorSymbolInvalid (info : Byte) :
    responseOf (.fault .armorSymbolInvalid info) = ⟨0x13#8, info, none⟩ := rfl

theorem responseOf_chars (c : Bytes) : responseOf (.ok (.chars c)) =
    ⟨0x00#8, 0x00#8, some (.armored (BitVec.ofNat 8 c.length) (laneBus c))⟩ := rfl

theorem responseOf_abits (b : Bits) : responseOf (.ok (.abits b)) =
    ⟨0x00#8, 0x00#8, some (.dearmored (valU b) b.length)⟩ := rfl

@[simp] theorem length_abitsIn (p : Params) (r : RequestPorts) : (abitsIn p r).length = r.nbits.toNat := length_bitsOf _ _

@[simp] theorem length_charsIn (r : RequestPorts) : (charsIn r).length = r.nchars.toNat := length_lanes _ _

/-- The operand of ARMOR.ENC is the low wires of the bus (10_state.md rule R38). -/
theorem valU_abitsIn {p : Params} {r : RequestPorts} (h : r.nbits.toNat ≤ p.bitsMax) :
    valU (abitsIn p r) = r.abits % 2 ^ r.nbits.toNat := by
  rw [abitsIn, bitsOf_bus _ h, valU_bitsOf]

/-! ## ARMOR.ENC (41_sixbit_armor.md section 2) -/

/-- Above `BITS_MAX` ARMOR.ENC is LengthOutOfRange (41_sixbit_armor.md rule R161). -/
theorem armorEnc_gt {p : Params} {b : Bits} (h : ¬ b.length ≤ p.bitsMax) :
    armorEnc p b = .fault .lengthOutOfRange (BitVec.ofNat 8 b.length) := by
  rw [armorEnc, require_decide, if_neg h]

/-- Settles O27, by the length check; each lane is the symbol of a base-64 digit. -/
theorem armorEncodeResult : Obligations.ArmorEncodeResult := by
  refine ⟨rfl, ?_⟩
  rintro s n m rfl rfl
  rw [exec_armorEnc_eq]
  refine ⟨fun h => ?_, fun h => ?_⟩
  · have hlen := length_abitsIn s.params s.request
    have hchars := length_armorChars (abitsIn s.params s.request)
    rw [hlen] at hchars
    refine ⟨laneBus (armorChars (abitsIn s.params s.request)), ?_, hchars ▸ laneBus_lt _, ?_⟩
    · rw [armorEnc_eq_ok (hlen.trans_le h), OpOutcome.map_ok, responseOf_chars, hchars]
    · rintro j hj k rfl
      rw [lane_laneBus _ j (hj.trans_eq hchars.symm), getElem_armorChars hlen rfl hj, valU_abitsIn h]
      exact sym_closed_form _ (Nat.mod_lt _ (by decide))
  · rw [armorEnc_gt (by rwa [length_abitsIn]), length_abitsIn, OpOutcome.map_fault, responseOf_lengthOutOfRange]

/-- Settles O31: the symbols are bytes of the alphabet, which stands above the delimiters. -/
theorem armoredBytesCannotBreakTheFrame : Obligations.ArmoredBytesCannotBreakTheFrame := by
  intro p x c h
  obtain ⟨-, rfl⟩ := armorEnc_eq_ok_iff.mp h
  have hne {b d : Byte} (hb : b ∈ armorChars x) (hd : d.toNat < 0x30) : b ≠ d :=
    fun hbd => notMem_armorChars x hd (hbd ▸ hb)
  exact ⟨length_armorChars x, fun b hb =>
    ⟨mem_alphabet_of_mem_armorChars hb, hne hb (by decide), hne hb (by decide), hne hb (by decide)⟩⟩

/-! ## ARMOR.DEC (41_sixbit_armor.md section 3) -/

/-- Above `ceil(BITS_MAX/6)` ARMOR.DEC is LengthOutOfRange (41_sixbit_armor.md rule R161). -/
theorem armorDec_gt {p : Params} {c : Bytes} (h : ¬ c.length ≤ p.charsMax) :
    armorDec p c = .fault .lengthOutOfRange (BitVec.ofNat 8 c.length) := by
  rw [armorDec, require_decide, if_neg h]

theorem dearmorFrom_cons_of_none {c : Byte} (h : unsym c = none) (j : Nat) (cs : Bytes) :
    dearmorFrom j (c :: cs) = .fault .armorSymbolInvalid (BitVec.ofNat 8 j) := by
  rw [dearmorFrom, h]

theorem dearmorFrom_cons_of_some {c : Byte} {k : Nat} (h : unsym c = some k) (j : Nat) (cs : Bytes) :
    dearmorFrom j (c :: cs) = (dearmorFrom (j + 1) cs).map (bitsOf k 6 ++ ·) := by
  rw [dearmorFrom, h]

/-- The first byte that is no symbol is reported with its index (41_sixbit_armor.md rule R168). -/
theorem dearmorFrom_of_first_bad {cs : Bytes} {i : Nat} (hi : i < cs.length) (hbad : unsym cs[i] = none)
    (hgood : ∀ l, (hl : l < i) → unsym cs[l] ≠ none) (j : Nat) :
    dearmorFrom j cs = .fault .armorSymbolInvalid (BitVec.ofNat 8 (j + i)) := by
  induction cs generalizing i j with
  | nil => exact absurd hi (Nat.not_lt_zero i)
  | cons b bs ih =>
    cases i with
    | zero => exact dearmorFrom_cons_of_none hbad j bs
    | succ i =>
      obtain ⟨k, hk⟩ : ∃ k, unsym b = some k := Option.ne_none_iff_exists'.mp (hgood 0 (Nat.succ_pos i))
      have hrest := ih (Nat.lt_of_succ_lt_succ hi) hbad (fun l hl => hgood (l + 1) (Nat.succ_lt_succ hl)) (j + 1)
      rw [dearmorFrom_cons_of_some hk, hrest, OpOutcome.map_fault, Nat.add_right_comm j 1 i, Nat.add_assoc]

/-- A symbol is in one of the two runs of the alphabet, with its value (30_encoding.md rule R92). -/
theorem toNat_sym_cases {k : Nat} (hk : k < 64) :
    (0x30 ≤ (sym k).toNat ∧ (sym k).toNat ≤ 0x57 ∧ k = (sym k).toNat - 48) ∨
      (0x60 ≤ (sym k).toNat ∧ (sym k).toNat ≤ 0x77 ∧ k = (sym k).toNat - 56) := by
  have hsym : (sym k).toNat = if k ≤ 39 then k + 48 else k + 56 := by
    rw [sym_closed_form k hk]
    exact toNat_ofNat_of_lt (by split_ifs <;> omega)
  rw [hsym]
  split_ifs <;> omega

/-- The bits of dearmored bytes, group by group: digit `j` is the value whose symbol byte `j` is. -/
theorem getElem_of_dearmored {cs : Bytes} {x : Bits} {n j : Nat} (h : Dearmored cs x) (hn : cs.length = n) (hj : j < n) :
    cs[j] = sym (valU x / 64 ^ (n - 1 - j) % 64) := by
  obtain ⟨hlen, hchars⟩ := h
  rw [hn] at hlen
  have hget := getElem_armorChars hlen (m := n) (by omega) hj
  rw [Nat.sub_self, pow_zero, Nat.mul_one] at hget
  rw [← hget]
  exact List.getElem_of_eq hchars.symm _

/-- Settles O28, by the length check and whether a lane holds no symbol. -/
theorem armorDecodeResult : Obligations.ArmorDecodeResult := by
  refine ⟨rfl, ?_⟩
  rintro s n rfl
  rw [exec_armorDec_eq]
  have hlen := length_charsIn s.request
  refine ⟨fun hmax hsym => ?_, fun hmax j hj hbad hgood => ?_, fun hmax => ?_⟩
  · have hall : ∀ b ∈ charsIn s.request, unsym b ≠ none := fun b hb => by
      obtain ⟨j, hj, rfl⟩ := mem_lanes_iff.mp hb
      exact hsym j hj
    obtain ⟨x, hx⟩ := exists_dearmored hall
    have hxlen : x.length = 6 * s.request.nchars.toNat := hx.1.trans (congrArg (6 * ·) hlen)
    refine ⟨valU x, ?_, ?_, ?_⟩
    · rw [armorDec_eq_ok_iff.mpr ⟨hlen.trans_le hmax, hx⟩, OpOutcome.map_ok, responseOf_abits, hxlen]
    · rw [← two_pow_six_mul, ← hxlen]
      exact valU_lt x
    · rintro j hj c rfl
      have hlane := (getElem_lanes hj).symm.trans (getElem_of_dearmored hx hlen hj)
      rw [hlane]
      exact toNat_sym_cases (Nat.mod_lt _ (by decide))
  · have hfault : armorDec s.params (charsIn s.request) = .fault .armorSymbolInvalid (BitVec.ofNat 8 (0 + j)) := by
      rw [armorDec_le _ _ (hlen.trans_le hmax), armorDecSeq]
      refine dearmorFrom_of_first_bad (hj.trans_eq hlen.symm) ?_ (fun l hl => ?_) 0
      · exact (congrArg unsym (getElem_lanes hj)).trans hbad
      · exact fun hnone => hgood l hl ((congrArg unsym (getElem_lanes (hl.trans hj))).symm.trans hnone)
    rw [hfault, Nat.zero_add, OpOutcome.map_fault, responseOf_armorSymbolInvalid]
  · rw [armorDec_gt (by rwa [hlen]), hlen, OpOutcome.map_fault, responseOf_lengthOutOfRange]

/-! ## DECODE.MSG's length tests (45_sentence_validator.md rule R311) -/

section

variable {p : Params} {snt payload : Bytes}

theorem decodeMsg_of_armorDec_fault {k : FaultKind} {info : Byte} (hsnt : sentDec p snt = .ok payload)
    (hdec : armorDec p payload = .fault k info) : decodeMsg p snt = .fault k info := by
  rw [decodeMsg, decodeMsgRaw, hsnt, OpOutcome.andThen_ok, hdec, OpOutcome.andThen_fault, OpOutcome.andThen_fault]

theorem decodeMsg_of_length_ne {x : Bits} (hsnt : sentDec p snt = .ok payload) (hdec : armorDec p payload = .ok x)
    (hlen : x.length ≠ 168) : decodeMsg p snt = .fault .blockLengthMismatch (BitVec.ofNat 8 x.length) := by
  rw [decodeMsg, decodeMsgRaw, hsnt, OpOutcome.andThen_ok, hdec, OpOutcome.andThen_ok, require_decide, if_neg hlen,
    OpOutcome.andThen_fault]

end

/-- Settles O55: 28 symbols are the most ARMOR.DEC takes and the least that give 168 bits. -/
theorem decodeMessageLengthTests : Obligations.DecodeMessageLengthTests := by
  intro p snt payload hmax hsnt
  have hcharsMax : p.charsMax = 28 := by rw [Params.charsMax, hmax]
  refine ⟨fun hlong => decodeMsg_of_armorDec_fault hsnt (armorDec_gt (by omega)), fun hshort hsym => ?_⟩
  obtain ⟨x, hx⟩ := exists_dearmored fun c hc => (unsym_ne_none_iff c).mpr (hsym c hc)
  have hlen : x.length = 6 * payload.length := hx.1
  rw [← hlen]
  exact decodeMsg_of_length_ne hsnt (armorDec_eq_ok_iff.mpr ⟨by omega, hx⟩) (by omega)

/-! ## The block over abstract sequences (41_sixbit_armor.md rules R161 and R170) -/

theorem dearmored_armorChars (x : Bits) : Dearmored (armorChars x) (x ++ zeros (padCount x.length)) :=
  ⟨by rw [length_append_pad, length_armorChars], armorChars_append_pad x⟩

/-- Settles O60: the symbols dearmor to the padded sequence, and within a limit its check passes. -/
theorem instanceAgreesWithAbstractSequences : Obligations.InstanceAgreesWithAbstractSequences := by
  refine ⟨fun x => dearmorFrom_eq_ok_iff.mpr (dearmored_armorChars x), fun p r h => ?_⟩
  cases r with
  | unpackU b => exact congrArg (OpOutcome.map Result.value) (widthLimit_le p b _ h)
  | unpackS b => exact congrArg (OpOutcome.map Result.value) (widthLimit_le p b _ h)
  | unpackRot b => exact congrArg (OpOutcome.map Result.value) (widthLimit_le p b _ h)
  | armorEnc b => exact congrArg (OpOutcome.map Result.chars) (armorEnc_le p b h)
  | armorDec c => exact congrArg (OpOutcome.map Result.abits) (armorDec_le p c h)
  | pack v w => rfl
  | csum b => rfl
  | navEnc x => rfl
  | navDec b => rfl
  | reserved cmd => rfl

end Sys2Proof.Machine
end

section
/-! The values of NAV.ENC and NAV.DEC (43_navblock_encode.md, 44_navblock_decode.md section 1): the block on its bus, the
scalings, the numerator ports. -/

namespace Sys2Proof.Machine

/-! A pause as before the request ports, and for its reason. -/

example : True := by decide +kernel

/-! ## The block of a record on its bus (43_navblock_encode.md rule R201) -/

theorem valU_take_offset {b : Bits} (hlen : b.length = 168) : ∀ n ≤ 16,
    valU (b.take (offset n)) * 2 ^ (168 - offset n) =
      ((List.range n).map fun k => valU (fieldBits k b) * 2 ^ busLow k).sum := by
  intro n hn
  induction n with
  | zero => exact Nat.zero_mul _
  | succ n ih =>
    have hsum := offset_add_busLow n hn
    have hlow : 168 - (offset n + busWidth n) = busLow n := by omega
    have hfield : 168 - offset n = busWidth n + busLow n := by omega
    rw [List.range_succ, List.map_append, List.sum_append, ← ih (by omega), List.map_singleton, List.sum_singleton,
      offset_succ n hn, List.take_add, ← fieldBits_eq_take hn, valU_append, length_fieldBits_eq_busWidth hlen hn, hlow,
      hfield, Nat.add_mul, pow_add, Nat.mul_assoc]

/-- The value of a block is its fields at their bus slices (30_encoding.md rule R81). -/
theorem valU_eq_sum_fieldBits {b : Bits} (hlen : b.length = 168) :
    valU b = ((List.range 16).map fun k => valU (fieldBits k b) * 2 ^ busLow k).sum := by
  have hall : b.take (offset 16) = b := List.take_of_length_le hlen.le
  rw [← valU_take_offset hlen 16 le_rfl, hall]
  exact (Nat.mul_one _).symm

/-- Field `k` of the assembled block is the raw value of the spec, packed (43_navblock_encode.md rule R201). -/
theorem fieldBits_assemble_rawFields (x : NavInput) {k : Nat} (hk : k < 16) :
    fieldBits k (assemble (rawFields x)) = packBits (rawValue x k) (busWidth k) := by
  rw [fieldBits_assemble rfl hk, width_fields k hk, getElem_rawFields]

/-- The assembled block on its bus is the block the spec writes out (40_bitfield_codec.md rule R144). -/
theorem ofNat_valU_assemble (x : NavInput) : BitVec.ofNat 168 (valU (assemble (rawFields x))) = blockOf x := by
  have hfield : ∀ k ∈ List.range 16, valU (fieldBits k (assemble (rawFields x))) * 2 ^ busLow k =
      (rawValue x k % (2 ^ busWidth k : Int)).toNat * 2 ^ busLow k := fun k hk => by
    rw [fieldBits_assemble_rawFields x (List.mem_range.mp hk), ← valU_packBits, Int.toNat_natCast]
  rw [valU_eq_sum_fieldBits (length_assemble rfl), List.map_congr_left hfield, blockOf]

/-- A mask without a set element is clear (43_navblock_encode.md rule R204). -/
theorem ovfMask_eq_zeros {x : NavInput} (h : firstSet (ovfMask (rawFields x)) = none) : ovfMask (rawFields x) = zeros 16 :=
  List.eq_replicate_iff.mpr ⟨rfl, List.findIdx?_eq_none_iff.mp h⟩

/-- What NAV.ENC delivers (60_exceptions.md rule R330). -/
theorem exec_navEnc_eq (s : State) : exec .navEnc s = .next { s with response := some (responseOf
    ((navEnc s.params (navIn s.params s.request)).map .block)) } := exec_eq_next .navEnc s

/-- The response with the assembled block of a record. -/
theorem responseOf_block (x : NavInput) (mask : Bits) : responseOf (.ok (.block ⟨assemble (rawFields x), mask⟩)) =
    ⟨0x00#8, 0x00#8, some (.block (blockOf x) (BitVec.ofNat 16 (valU mask)))⟩ := by
  rw [← ofNat_valU_assemble]
  rfl

/-- Settles O35: no field overflows, so either policy gives the assembled block with a clear mask. -/
theorem navEncodeFitting : Obligations.NavEncodeFitting := by
  intro s h
  rw [exec_navEnc_eq, navEnc_of_allFit s.params h, OpOutcome.map_ok, responseOf_block,
    ovfMask_eq_zeros (firstSet_ovfMask_of_allFit h), zeros, valU_replicate_false]

/-! ## The scalings (43_navblock_encode.md rule R207) -/

/-- Settles O42: the raw value is `trunc` of the product, which moves toward zero by less than one. -/
theorem scalingTruncatesTowardZero : Obligations.ScalingTruncatesTowardZero := by
  intro k q
  obtain ⟨hdist, habs⟩ := trunc_bounds (k * q)
  rw [truncMul_eq_trunc]
  exact ⟨rfl, habs, hdist⟩

/-! ## The Rate-of-Turn scaling (43_navblock_encode.md rules R208 and R209) -/

/-- `isqrt` is adjoint to squaring (00_scope.md rule R16). -/
theorem le_isqrt_iff {r n : Nat} : r ≤ isqrt n ↔ r * r ≤ n := by
  obtain ⟨hle, hlt⟩ := isqrt_spec n
  refine ⟨fun h => (Nat.mul_self_le_mul_self h).trans hle, fun h => ?_⟩
  exact Nat.lt_succ_iff.mp (Nat.mul_self_lt_mul_self_iff.mp (h.trans_lt hlt))

/-- The smallest tie is at magnitude 250000 (43_navblock_encode.md rule R209). -/
theorem le_of_rotTie {a : Nat} (h : rotTie a = true) : 250000 ≤ a := by
  simp only [rotTie, Bool.and_eq_true, decide_eq_true_eq] at h
  obtain ⟨-, hodd⟩ := h
  omega

theorem rnd_of_not_rotTie {a : Nat} (h : ¬ rotTie a = true) : rnd a = (isqrt (89605156 * a) + 1000) / 2000 := by
  rw [rnd, if_neg h]

theorem rnd_of_lt {a : Nat} (h : a < 250000) : rnd a = (isqrt (89605156 * a) + 1000) / 2000 :=
  rnd_of_not_rotTie fun htie => absurd (le_of_rotTie htie) (Nat.not_le.mpr h)

/-- A magnitude off the ties rounds to `m + 1` or more exactly from `m + 1/2` on: `89605156` is `9466²`, and `9466` is
`2000 · 4.733`. -/
theorem lt_rnd_iff {a m : Nat} (h : ¬ rotTie a = true) :
    m < rnd a ↔ (2000 * m + 1000) * (2000 * m + 1000) ≤ 89605156 * a := by
  rw [rnd_of_not_rotTie h, ← le_isqrt_iff]
  omega

theorem isqrt_div_le_rnd (a : Nat) : isqrt (89605156 * a) / 2000 ≤ rnd a := by
  rw [rnd]
  split_ifs <;> omega

/-- 4.733 times a square root is half-way between integers at no magnitude below 250000 (43_navblock_encode.md rule
R209). -/
theorem ne_half_of_lt {a : Nat} (h : a < 250000) (m : Nat) : (2000 * m + 1000) * (2000 * m + 1000) ≠ 89605156 * a := by
  intro heq
  have hsq : 250000 * ((2 * m + 1) * (2 * m + 1)) = 22401289 * a := by linarith
  have hdvd : 250000 ∣ a := Nat.Coprime.dvd_of_dvd_mul_left (by norm_num) (Dvd.intro _ hsq)
  have hzero : a = 0 := Nat.eq_zero_of_dvd_of_lt hdvd h
  rw [hzero] at hsq
  have : 0 < (2 * m + 1) * (2 * m + 1) := by positivity
  omega

/-- `89605156 · a` is the square of 2000 times the scaled square root. -/
theorem sq_scaled_sqrt (a : Nat) : (2000 * (4733 / 1000 * Real.sqrt a)) ^ 2 = 89605156 * a := by
  rw [mul_pow, mul_pow, Real.sq_sqrt (Nat.cast_nonneg a)]
  ring

/-- Below the smallest tie `rnd` is the nearest integer (43_navblock_encode.md rule R208). -/
theorem abs_rnd_sub_lt {a : Nat} (h : a < 250000) : |(rnd a : ℝ) - 4733 / 1000 * Real.sqrt a| < 1 / 2 := by
  have htie : ¬ rotTie a = true := fun htie => absurd (le_of_rotTie htie) (Nat.not_le.mpr h)
  have hsq := sq_scaled_sqrt a
  have hnonneg : 0 ≤ 2000 * (4733 / 1000 * Real.sqrt a) := by positivity
  have hupper : 2000 * (4733 / 1000 * Real.sqrt a) < 2000 * rnd a + 1000 := by
    have hlt := Nat.not_le.mp (mt (lt_rnd_iff htie).mpr (lt_irrefl (rnd a)))
    refine lt_of_pow_lt_pow_left₀ 2 (by positivity) ?_
    rw [hsq, pow_two]
    exact_mod_cast hlt
  have hlower : 2000 * (rnd a : ℝ) - 1000 < 2000 * (4733 / 1000 * Real.sqrt a) := by
    cases hr : rnd a with
    | zero => exact lt_of_lt_of_le (by norm_num) hnonneg
    | succ m =>
      have hle := (lt_rnd_iff htie).mp (m.lt_succ_self.trans_eq hr.symm)
      have hlt := lt_of_le_of_ne hle (ne_half_of_lt h m)
      have hhalf : 2000 * (((m + 1 : Nat) : ℝ)) - 1000 = 2000 * m + 1000 := by push_cast; ring
      refine lt_of_pow_lt_pow_left₀ 2 hnonneg ?_
      rw [hsq, hhalf, pow_two]
      exact_mod_cast hlt
  rw [abs_lt]
  exact ⟨by linarith, by linarith⟩

theorem rotScale_of_ne {x : Int} (h : x ≠ 128) (h' : x ≠ -128) : rotScale x = x.sign * rnd x.natAbs := by
  rw [rotScale, if_neg (by omega)]

/-- Settles O40: off the sentinels the scaled value has the sign of the rate and the magnitude nearest to the product. -/
theorem rotScaleIsNearest : Obligations.RotScaleIsNearest := by
  refine ⟨rfl, rfl, fun x h h' hlt => ?_⟩
  have hsign : |(x.sign : ℝ)| ≤ 1 := by
    rcases Int.sign_trichotomy x with hx | hx | hx <;> simp [hx]
  rw [rotScale_of_ne h h', Int.cast_mul, Int.cast_natCast, ← mul_sub, abs_mul]
  exact (mul_le_of_le_one_left (abs_nonneg _) hsign).trans_lt (abs_rnd_sub_lt hlt)

/-! ## The top of the Rate-of-Turn range (43_navblock_encode.md rule R228) -/

theorem not_rotTie_of_le {a : Nat} (h : a ≤ 737) : ¬ rotTie a = true := fun htie => by
  have := le_of_rotTie htie
  omega

theorem rnd_le_127 {a : Nat} (h : a ≤ 725) : rnd a ≤ 127 := by
  have hlt := mt (lt_rnd_iff (m := 127) (not_rotTie_of_le (h.trans (by decide)))).mp
  omega

theorem rnd_eq_128 {a : Nat} (hlo : 726 ≤ a) (hhi : a ≤ 737) : rnd a = 128 := by
  have hgt := (lt_rnd_iff (m := 127) (not_rotTie_of_le hhi)).mpr (by omega)
  have hle := mt (lt_rnd_iff (m := 128) (not_rotTie_of_le hhi)).mp (by omega)
  omega

/-- From 738 on the magnitude is above 128; a tie, at 250000 or more, is far above. -/
theorem rnd_gt_128 {a : Nat} (h : 738 ≤ a) : 128 < rnd a := by
  by_cases htie : rotTie a = true
  · have hroot : 258000 ≤ isqrt (89605156 * a) := le_isqrt_iff.mpr (by have := le_of_rotTie htie; omega)
    exact (Nat.div_le_div_right hroot).trans (isqrt_div_le_rnd a)
  · exact (lt_rnd_iff htie).mpr (by omega)

theorem natAbs_rotScale {x : Int} (hx : x ≠ 0) (h : x ≠ 128) (h' : x ≠ -128) :
    (rotScale x).natAbs = rnd x.natAbs := by
  rw [rotScale_of_ne h h', Int.natAbs_mul, Int.natAbs_sign_of_ne_zero hx, Nat.one_mul, Int.natAbs_natCast]

/-- +128 and −128 pack to one pattern (43_navblock_encode.md rule R228). -/
theorem packBits_128_mul_sign {x : Int} (hx : x ≠ 0) :
    packBits (128 * x.sign) 8 = [true, false, false, false, false, false, false, false] := by
  rcases lt_or_gt_of_ne hx with hneg | hpos
  · rw [Int.sign_eq_neg_one_of_neg hneg]
    decide
  · rw [Int.sign_eq_one_of_pos hpos]
    decide

/-- Settles O41, by the range of the magnitude. -/
theorem rotAliasing : Obligations.RotAliasing := by
  refine ⟨fun x hlo hhi => ?_, fun x hlo hfits => ?_, fun x hhi h h' => ?_⟩
  · have hscale : rotScale x = 128 * x.sign := by
      rw [rotScale_of_ne (by omega) (by omega), rnd_eq_128 hlo hhi, mul_comm]
      rfl
    rw [hscale]
    exact ⟨rfl, packBits_128_mul_sign (by omega)⟩
  · have habs := natAbs_rotScale (x := x) (by omega) (by omega) (by omega)
    have hgt := rnd_gt_128 hlo
    rw [FieldFits] at hfits
    omega
  · rcases eq_or_ne x 0 with rfl | hx
    · exact ⟨by decide, by decide⟩
    · have habs := natAbs_rotScale hx h h'
      have hle := rnd_le_127 hhi
      omega

/-! ## The numerator ports of NAV.DEC (44_navblock_decode.md rule R243) -/

theorem mkRat_sogPort (x : BitVec 10) : mkRat (sogPort x).toNat 10 = sogValue x.toNat := by
  rw [toNat_sogPort, sogValue]
  split_ifs
  · rfl
  · rfl
  · rfl

theorem mkRat_cogPort (x : BitVec 12) : mkRat (cogPort x).toNat 10 = cogValue x.toNat := by
  rw [toNat_cogPort, cogValue]
  split_ifs
  · rfl
  · rfl

theorem toInt_rotPort_eq_rotValue (x : BitVec 8) : (rotPort x).toInt = rotValue (bitsOf x.toNat 8) := by
  rw [toInt_rotPort, rotValue, valU_bus, valS_bus (by decide)]
  exact if_congr (BitVec.toNat_inj (y := 0x80#8)).symm rfl rfl

theorem valU_fieldBits_bus (b : Block) {k low width : Nat} (hk : k < 16) (hlow : busLow k = low)
    (hwidth : busWidth k = width) : valU (fieldBits k (bitsOf b.toNat 168)) = (b.extractLsb' low width).toNat := by
  rw [fieldBits_bus b hk hlow hwidth, valU_bus]

theorem valS_fieldBits_bus (b : Block) {k low width : Nat} (hk : k < 16) (hlow : busLow k = low)
    (hwidth : busWidth k = width) (hpos : 1 ≤ width) :
    valS (fieldBits k (bitsOf b.toNat 168)) = (b.extractLsb' low width).toInt := by
  rw [fieldBits_bus b hk hlow hwidth, valS_bus hpos]

/-- The bus slices of a block read back as its record (10_state.md rule R41). -/
theorem readRecord_portsOfBlock (b : Block) : readRecord (portsOfBlock b) = recordOf (bitsOf b.toNat 168) := by
  refine (NavRecord.mk.injEq ..).mpr ⟨?_, ?_, ?_, ?_, ?_, ?_, ?_, ?_, ?_, ?_, ?_, ?_, ?_, ?_, ?_, ?_⟩
  · exact (valU_fieldBits_bus b (k := 0) (by decide) rfl rfl).symm
  · exact (valU_fieldBits_bus b (k := 1) (by decide) rfl rfl).symm
  · exact (valU_fieldBits_bus b (k := 2) (by decide) rfl rfl).symm
  · exact (valU_fieldBits_bus b (k := 3) (by decide) rfl rfl).symm
  · rw [fieldBits_bus b (low := 118) (width := 8) (by decide) rfl rfl]
    exact toInt_rotPort_eq_rotValue _
  · rw [valU_fieldBits_bus b (low := 108) (width := 10) (by decide) rfl rfl]
    exact mkRat_sogPort _
  · rw [fieldBits_bus b (low := 107) (width := 1) (by decide) rfl rfl]
    exact (decide_valU_bit b 107).symm
  · rw [valS_fieldBits_bus b (low := 79) (width := 28) (by decide) rfl rfl (by decide)]
    rfl
  · rw [valS_fieldBits_bus b (low := 52) (width := 27) (by decide) rfl rfl (by decide)]
    rfl
  · rw [valU_fieldBits_bus b (low := 40) (width := 12) (by decide) rfl rfl]
    exact mkRat_cogPort _
  · exact (valU_fieldBits_bus b (k := 10) (by decide) rfl rfl).symm
  · exact (valU_fieldBits_bus b (k := 11) (by decide) rfl rfl).symm
  · exact (valU_fieldBits_bus b (k := 12) (by decide) rfl rfl).symm
  · exact (valU_fieldBits_bus b (k := 13) (by decide) rfl rfl).symm
  · rw [fieldBits_bus b (low := 19) (width := 1) (by decide) rfl rfl]
    exact (decide_valU_bit b 19).symm
  · exact (valU_fieldBits_bus b (k := 15) (by decide) rfl rfl).symm

/-- Settles O45: the record is driven as the bus slices of its block, which read back as the record. -/
theorem recordPortsCarryTheExactRationals : Obligations.RecordPortsCarryTheExactRationals := by
  intro b hlen
  obtain ⟨x, rfl⟩ := exists_bus hlen
  refine ⟨_, navDec_eq_ok_iff.mpr ⟨hlen, rfl⟩, ?_⟩
  rw [driveRecord_recordOf_bus, readRecord_portsOfBlock]

end Sys2Proof.Machine
end

section
/-! The faults of each operation and the invariant (60_exceptions.md section 1, 10_state.md section 3). -/

namespace Sys2Proof.Machine

/-! A pause as before the request ports, and for its reason. -/

example : True := by decide +kernel

/-! ## The faults of each operation (60_exceptions.md rules R322 and R323) -/

theorem OpOutcome.map_eq_fault_iff {α β : Type} {f : α → β} {o : OpOutcome α} {k : FaultKind} {info : Byte} :
    o.map f = .fault k info ↔ o = .fault k info := by
  cases o <;> simp

/-- A guarded outcome faults by its guard or in its rest. -/
theorem require_eq_fault {α : Type} {c : Bool} {k k' : FaultKind} {info info' : Byte} {o : OpOutcome α}
    (h : require c k' info' o = .fault k info) : (k = k' ∧ info = info') ∨ o = .fault k info := by
  cases c with
  | true => exact .inr h
  | false =>
    obtain ⟨hk, hinfo⟩ := OpOutcome.fault.inj h
    exact .inl ⟨hk.symm, hinfo.symm⟩

/-- A guard in front of a result is the only fault. -/
theorem require_ok_eq_fault {α : Type} {c : Bool} {k k' : FaultKind} {info info' : Byte} {r : α}
    (h : require c k' info' (.ok r) = .fault k info) : k = k' ∧ info = info' :=
  (require_eq_fault h).resolve_right nofun

/-- The limit and the check of an UNPACK operation raise the same fault. -/
theorem widthLimit_require_eq_fault {p : Params} {b : Bits} {c : Bool} {k : FaultKind} {info : Byte} {v : Int}
    (h : widthLimit p b (require c .widthOutOfRange (BitVec.ofNat 8 b.length) (.ok v)) = .fault k info) :
    k = .widthOutOfRange ∧ info = BitVec.ofNat 8 b.length :=
  (require_eq_fault h).elim id require_ok_eq_fault

/-- ARMOR.DEC over abstract sequences faults at a byte that is no symbol only (41_sixbit_armor.md rule R168). -/
theorem dearmorFrom_eq_fault {cs : Bytes} {j : Nat} {k : FaultKind} {info : Byte} (h : dearmorFrom j cs = .fault k info) :
    k = .armorSymbolInvalid ∧ ∃ i < cs.length, info = BitVec.ofNat 8 (j + i) := by
  induction cs generalizing j with
  | nil => cases h
  | cons b bs ih =>
    cases hb : unsym b with
    | none =>
      rw [dearmorFrom_cons_of_none hb] at h
      obtain ⟨hk, hinfo⟩ := OpOutcome.fault.inj h
      exact ⟨hk.symm, 0, Nat.succ_pos _, hinfo.symm⟩
    | some v =>
      rw [dearmorFrom_cons_of_some hb, OpOutcome.map_eq_fault_iff] at h
      obtain ⟨hk, i, hi, hinfo⟩ := ih h
      exact ⟨hk, i + 1, Nat.succ_lt_succ hi, by rw [hinfo, Nat.add_right_comm, Nat.add_assoc]⟩

/-- Element `k` of the mask says that raw value `k` does not fit its field (43_navblock_encode.md rule R204). -/
theorem getElem_ovfMask (x : NavInput) {k : Nat} (hk : k < (ovfMask (rawFields x)).length) :
    (ovfMask (rawFields x))[k] = !Field.fits ⟨busWidth k, fieldSort k⟩ (rawValue x k) := by
  have hfields : k < fields.length := hk
  have hraw : k < (rawFields x).length := hk
  rw [← getElem_fields k hfields, ← getElem_rawFields x hraw]
  exact List.getElem_zipWith

/-- The lowest field that does not fit is not one of the constants 0 and 1 (43_navblock_encode.md rules R205, R210 and
R211). -/
theorem firstSet_range {x : NavInput} {k : Nat} (h : firstSet (ovfMask (rawFields x)) = some k) : 2 ≤ k ∧ k ≤ 15 := by
  obtain ⟨hk, hset, -⟩ := List.findIdx?_eq_some_iff_getElem.mp h
  have hlt : k < 16 := hk
  have hmisfit : Field.fits ⟨busWidth k, fieldSort k⟩ (rawValue x k) ≠ true := by
    simpa [getElem_ovfMask] using hset
  have hk0 : k ≠ 0 := by rintro rfl; exact hmisfit (fits_unchecked x 0 (by decide))
  have hk1 : k ≠ 1 := by rintro rfl; exact hmisfit (fits_unchecked x 1 (by decide))
  omega

/-- NAV.ENC faults under policy `fail` only, at the lowest field that does not fit (43_navblock_encode.md rule R205). -/
theorem navEnc_eq_fault {p : Params} {x : NavInput} {k : FaultKind} {info : Byte} (h : navEnc p x = .fault k info) :
    k = .encodingOverflow ∧ p.overflowPolicy = .fail ∧
      ∃ i, firstSet (ovfMask (rawFields x)) = some i ∧ info = BitVec.ofNat 8 i := by
  unfold navEnc at h
  split at h
  next i hpolicy hset =>
    obtain ⟨hk, hinfo⟩ := OpOutcome.fault.inj h
    exact ⟨hk.symm, hpolicy, i, hset, hinfo.symm⟩
  next => cases h

/-- The faults an operation can deliver through its ports, with their info ranges (60_exceptions.md rules R322 and
R323). -/
def FaultOf (p : Params) : Instr → FaultKind → Byte → Prop
  | .pack, k, info | .unpackU, k, info | .unpackS, k, info | .unpackRot, k, info =>
    k = .widthOutOfRange ∧ info.toNat ≤ 63
  | .armorEnc, k, _ | .csum, k, _ => k = .lengthOutOfRange
  | .armorDec, k, info => k = .lengthOutOfRange ∨ (k = .armorSymbolInvalid ∧ info.toNat < p.charsMax)
  | .navEnc, k, info => k = .encodingOverflow ∧ p.overflowPolicy = .fail ∧ 2 ≤ info.toNat ∧ info.toNat ≤ 15
  | .navDec, _, _ => False

theorem toNat_ofNat_width (w : BitVec 6) : (BitVec.ofNat 8 w.toNat).toNat ≤ 63 := by
  have hw := w.isLt
  rw [toNat_ofNat_of_lt (by omega)]
  omega

/-- On the ports the width operand is at most 63, so its fault reports it whole (60_exceptions.md rule R322). -/
theorem widthFault_of_eq {p : Params} {r : RequestPorts} {k : FaultKind} {info : Byte}
    (h : k = .widthOutOfRange ∧ info = BitVec.ofNat 8 (bitsIn p r).length) :
    k = .widthOutOfRange ∧ info.toNat ≤ 63 := by
  obtain ⟨hk, rfl⟩ := h
  rw [length_bitsIn]
  exact ⟨hk, toNat_ofNat_width _⟩

/-- Every fault of an operation is one of its own. -/
theorem faultOf_of_block_eq_fault {p : Params} {r : RequestPorts} {i : Instr} {k : FaultKind} {info : Byte}
    (h : block p (readRequest p r i) = .fault k info) : FaultOf p i k info := by
  cases i with
  | pack =>
    obtain ⟨hk, rfl⟩ := require_ok_eq_fault (OpOutcome.map_eq_fault_iff.mp h)
    exact ⟨hk, toNat_ofNat_width _⟩
  | unpackU => exact widthFault_of_eq (widthLimit_require_eq_fault (OpOutcome.map_eq_fault_iff.mp h))
  | unpackS => exact widthFault_of_eq (widthLimit_require_eq_fault (OpOutcome.map_eq_fault_iff.mp h))
  | unpackRot => exact widthFault_of_eq (widthLimit_require_eq_fault (OpOutcome.map_eq_fault_iff.mp h))
  | armorEnc => exact (require_ok_eq_fault (OpOutcome.map_eq_fault_iff.mp h)).1
  | armorDec =>
    have hdec : armorDec p (charsIn r) = .fault k info := OpOutcome.map_eq_fault_iff.mp h
    by_cases hmax : (charsIn r).length ≤ p.charsMax
    · rw [armorDec_le p _ hmax] at hdec
      obtain ⟨hk, i, hi, rfl⟩ := dearmorFrom_eq_fault hdec
      have hlt := r.nchars.isLt
      rw [length_charsIn] at hi hmax
      refine .inr ⟨hk, ?_⟩
      rw [Nat.zero_add, toNat_ofNat_of_lt (hi.trans hlt)]
      exact hi.trans_le hmax
    · rw [armorDec_gt hmax] at hdec
      exact .inl (OpOutcome.fault.inj hdec).1.symm
  | csum => exact (require_ok_eq_fault (OpOutcome.map_eq_fault_iff.mp h)).1
  | navEnc =>
    obtain ⟨hk, hpolicy, i, hset, rfl⟩ := navEnc_eq_fault (OpOutcome.map_eq_fault_iff.mp h)
    obtain ⟨hlo, hhi⟩ := firstSet_range hset
    rw [FaultOf, toNat_ofNat_of_lt (by omega)]
    exact ⟨hk, hpolicy, hlo, hhi⟩
  | navDec =>
    have hdec : navDec (blkIn r) = .fault k info := OpOutcome.map_eq_fault_iff.mp h
    rw [navDec_blkIn] at hdec
    cases hdec

/-- Settles O14: a status other than OK is the status of one of the operation's faults. -/
theorem faultsByOperation : Obligations.FaultsByOperation := by
  intro i s t r hexec hresponse hstatus
  rw [exec_eq_next] at hexec
  obtain rfl := Host.Outcome.next.inj hexec
  obtain rfl := Option.some.inj hresponse
  cases ho : block s.params (readRequest s.params s.request i) with
  | ok res =>
    rw [ho] at hstatus
    exact absurd rfl hstatus
  | fault k info =>
    have hfault := faultOf_of_block_eq_fault ho
    cases i with
    | pack => obtain ⟨rfl, -⟩ := hfault; rfl
    | unpackU => obtain ⟨rfl, -⟩ := hfault; rfl
    | unpackS => obtain ⟨rfl, -⟩ := hfault; rfl
    | unpackRot => obtain ⟨rfl, -⟩ := hfault; rfl
    | armorEnc => obtain rfl := hfault; rfl
    | armorDec =>
      rcases hfault with rfl | ⟨rfl, -⟩
      · exact .inl rfl
      · exact .inr rfl
    | csum => obtain rfl := hfault; rfl
    | navEnc =>
      obtain ⟨rfl, hpolicy, -⟩ := hfault
      exact ⟨rfl, hpolicy⟩
    | navDec => exact hfault

/-! ## The results of each operation in their port formats (10_state.md rules R40 and R41) -/

theorem pack_eq_ok {p : Params} {v : Int} {w : Nat} {r : Packed} (h : pack p v w = .ok r) :
    w ≤ p.wmax ∧ r.bits = packBits v w := by
  by_cases hw : 1 ≤ w ∧ w ≤ p.wmax
  · rw [pack_of_legal_width hw.1 hw.2] at h
    exact ⟨hw.2, congrArg Packed.bits (OpOutcome.ok.inj h).symm⟩
  · rw [pack_of_illegal_width hw] at h
    cases h

theorem eq_of_ite_fault_eq_ok {α : Type} {c : Prop} [Decidable c] {k : FaultKind} {info : Byte} {a r : α}
    (h : (if c then OpOutcome.ok a else .fault k info) = .ok r) : c ∧ a = r := by
  by_cases hc : c
  · rw [if_pos hc] at h
    exact ⟨hc, OpOutcome.ok.inj h⟩
  · rw [if_neg hc] at h
    cases h

/-- A value of `n` signed wires is one of `WMAX` + 1 bits. -/
theorem inFormat_value {p : Params} {n : Nat} {v : Int} (hn : n ≤ p.wmax) (hlo : -2 ^ n ≤ v) (hhi : v < 2 ^ n) :
    (ResultPorts.value v).inFormat p := by
  have hpow : (2 : Int) ^ n ≤ 2 ^ p.wmax := pow_le_pow_right₀ (by decide) hn
  exact ⟨(neg_le_neg hpow).trans hlo, hhi.trans_le hpow⟩

theorem charsMax_lt {p : Params} (hp : p.wf = true) : p.charsMax < 256 := by
  obtain ⟨-, -, -, -, hbitsMax, -⟩ := Params.limits_of_wf hp
  rw [Params.charsMax]
  omega

theorem inFormat_chars {p : Params} {x : Bits} (hp : p.wf = true) (hx : x.length ≤ p.bitsMax) :
    (driveResult (.chars (armorChars x))).inFormat p := by
  have hmax : (armorChars x).length ≤ p.charsMax := by
    rw [length_armorChars]
    exact Nat.div_le_div_right (Nat.add_le_add_right hx 5)
  have hcount : (BitVec.ofNat 8 (armorChars x).length).toNat = (armorChars x).length :=
    toNat_ofNat_of_lt (hmax.trans_lt (charsMax_lt hp))
  rw [driveResult, ResultPorts.inFormat, hcount, lanes_laneBus]
  exact ⟨hmax, laneBus_lt _, fun b hb => (unsym_ne_none_iff b).mpr (mem_alphabet_of_mem_armorChars hb)⟩

theorem inFormat_abits {p : Params} {cs : Bytes} {x : Bits} (hcs : cs.length ≤ p.charsMax) (hx : Dearmored cs x) :
    (driveResult (.abits x)).inFormat p := by
  obtain ⟨hlen, -⟩ := hx
  refine ⟨valU_lt x, ?_, ?_⟩
  · rw [hlen, Nat.mul_mod_right]
  · rw [hlen]
    exact Nat.mul_le_mul_left 6 hcs

/-- Element `k` of a sequence is wire `n − 1 − k` of its bus (00_scope.md rule R15). -/
theorem getElem_bitsOf {u n k : Nat} (hk : k < n) : (bitsOf u n)[k]'(by rwa [length_bitsOf]) = u.testBit (n - 1 - k) := by
  induction n generalizing k with
  | zero => exact absurd hk (Nat.not_lt_zero k)
  | succ n ih =>
    cases k with
    | zero => rfl
    | succ k =>
      have hindex : n + 1 - 1 - (k + 1) = n - 1 - k := by omega
      rw [hindex, ← ih (Nat.lt_of_succ_lt_succ hk)]
      rfl

/-- The wire of mask element `k` (10_state.md rule R40). -/
theorem getLsbD_ovfMask (x : NavInput) {k : Nat} (hk : k < 16) :
    (BitVec.ofNat 16 (valU (ovfMask (rawFields x)))).getLsbD (15 - k) =
      !Field.fits ⟨busWidth k, fieldSort k⟩ (rawValue x k) := by
  have hmask : bitsOf (valU (ovfMask (rawFields x))) 16 = ovfMask (rawFields x) := bitsOf_valU _
  have hwire := List.getElem_of_eq hmask (i := k) (by rwa [length_bitsOf])
  rw [getElem_bitsOf hk, getElem_ovfMask] at hwire
  rw [BitVec.getLsbD_ofNat, decide_eq_true (show 15 - k < 16 by omega), Bool.true_and]
  exact hwire

/-- The wires of the fields that always fit are clear (43_navblock_encode.md rules R210 to R225). -/
theorem getLsbD_ovfMask_unchecked (x : NavInput) : ∀ k ∈ [0, 1, 6, 14],
    (BitVec.ofNat 16 (valU (ovfMask (rawFields x)))).getLsbD (15 - k) = false := fun k hk => by
  have hlt : ∀ k ∈ [0, 1, 6, 14], k < 16 := by decide
  rw [getLsbD_ovfMask x (hlt k hk), fits_unchecked x k hk]
  rfl

/-- Bus slice `k` of the assembled block is raw value `k` packed (30_encoding.md rule R82). -/
theorem extractLsb'_assemble (x : NavInput) {k low width : Nat} (hk : k < 16) (hlow : busLow k = low)
    (hwidth : busWidth k = width) : (BitVec.ofNat 168 (valU (assemble (rawFields x)))).extractLsb' low width =
      BitVec.ofNat width (valU (packBits (rawValue x k) width)) := by
  rw [← ofNat_valU_fieldBits_bus _ hk hlow hwidth, bitsOf_block (length_assemble rfl), fieldBits_assemble_rawFields x hk,
    hwidth]

/-- Under policy `fail` a block comes with a clear mask (43_navblock_encode.md rule R205). -/
theorem firstSet_of_navEnc_ok {p : Params} {x : NavInput} {e : Encoded} (h : navEnc p x = .ok e)
    (hpolicy : p.overflowPolicy = .fail) : firstSet (ovfMask (rawFields x)) = none := by
  rw [navEnc, hpolicy] at h
  cases hset : firstSet (ovfMask (rawFields x)) with
  | none => rfl
  | some k =>
    rw [hset] at h
    cases h

theorem inFormat_block {p : Params} {x : NavInput} {e : Encoded} (h : navEnc p x = .ok e) :
    (driveResult (.block e)).inFormat p := by
  have hclear := getLsbD_ovfMask_unchecked x
  obtain rfl := eq_of_navEnc_ok h
  refine ⟨?_, ?_, hclear 0 (by decide), hclear 1 (by decide), hclear 6 (by decide), hclear 14 (by decide),
    fun hpolicy => ?_⟩
  · have hone : BitVec.ofNat 6 (valU (packBits 1 6)) = 1#6 := by decide
    exact (extractLsb'_assemble x (k := 0) (low := 162) (width := 6) (by decide) rfl rfl).trans hone
  · have hzero : BitVec.ofNat 2 (valU (packBits 0 2)) = 0#2 := by decide
    exact (extractLsb'_assemble x (k := 1) (low := 160) (width := 2) (by decide) rfl rfl).trans hzero
  · rw [ovfMask_eq_zeros (firstSet_of_navEnc_ok h hpolicy), zeros, valU_replicate_false]

/-- The ranges of NAV.DEC on its ports (10_state.md rule R41). -/
theorem inRange_portsOfBlock (b : Block) : (portsOfBlock b).inRange := by
  refine ⟨?_, ?_, ?_⟩
  · have hrot : (portsOfBlock b).rot.toInt = _ := toInt_rotPort_eq_rotValue (b.extractLsb' 118 8)
    rw [hrot]
    exact ⟨neg_127_le_rotValue (length_bitsOf _ _), (rotValue_range (length_bitsOf _ _)).2⟩
  · have hsog : (portsOfBlock b).sog.toNat = _ := toNat_sogPort (b.extractLsb' 108 10)
    have hlt := (b.extractLsb' 108 10).isLt
    rw [hsog]
    split_ifs <;> omega
  · have hcog : (portsOfBlock b).cog.toNat = _ := toNat_cogPort (b.extractLsb' 40 12)
    have hlt := (b.extractLsb' 40 12).isLt
    rw [hcog]
    split_ifs <;> omega

/-- Under legal parameters every result of an operation is in the formats of its ports. -/
theorem inFormat_of_block_eq_ok {p : Params} {r : RequestPorts} {i : Instr} {res : Result} (hp : p.wf = true)
    (h : block p (readRequest p r i) = .ok res) : (driveResult res).inFormat p := by
  cases i with
  | pack =>
    obtain ⟨a, ha, rfl⟩ := OpOutcome.map_eq_ok_iff.mp h
    obtain ⟨hmax, hbits⟩ := pack_eq_ok ha
    rw [driveResult, hbits]
    exact (valU_lt _).trans_le (Nat.pow_le_pow_right Nat.two_pos ((length_packBits _ _).trans_le hmax))
  | unpackU =>
    obtain ⟨v, hv, rfl⟩ := OpOutcome.map_eq_ok_iff.mp h
    obtain ⟨⟨-, hmax⟩, rfl⟩ := eq_of_ite_fault_eq_ok ((unpackU_eq ..).symm.trans hv)
    have hlt : (valU (bitsIn p r) : Int) < 2 ^ (bitsIn p r).length := by exact_mod_cast valU_lt (bitsIn p r)
    exact inFormat_value hmax ((neg_nonpos.mpr (by positivity)).trans (Int.natCast_nonneg _)) hlt
  | unpackS =>
    obtain ⟨v, hv, rfl⟩ := OpOutcome.map_eq_ok_iff.mp h
    obtain ⟨⟨hpos, hmax⟩, rfl⟩ := eq_of_ite_fault_eq_ok ((unpackS_eq ..).symm.trans hv)
    obtain ⟨hlo, hhi⟩ := valS_range _ hpos
    exact inFormat_value ((Nat.sub_le _ 1).trans hmax) (by exact_mod_cast hlo) (by exact_mod_cast hhi)
  | unpackRot =>
    obtain ⟨v, hv, rfl⟩ := OpOutcome.map_eq_ok_iff.mp h
    obtain ⟨⟨hlen, hmax⟩, rfl⟩ := eq_of_ite_fault_eq_ok ((unpackRot_eq ..).symm.trans hv)
    have hrange := rotValue_range hlen
    exact inFormat_value (n := 8) (hlen.symm.trans_le hmax) (by omega) (by omega)
  | armorEnc =>
    obtain ⟨c, hc, rfl⟩ := OpOutcome.map_eq_ok_iff.mp h
    obtain ⟨hlen, rfl⟩ := armorEnc_eq_ok_iff.mp hc
    exact inFormat_chars hp hlen
  | armorDec =>
    obtain ⟨x, hx, rfl⟩ := OpOutcome.map_eq_ok_iff.mp h
    obtain ⟨hlen, hdearmored⟩ := armorDec_eq_ok_iff.mp hx
    exact inFormat_abits hlen hdearmored
  | csum =>
    obtain ⟨a, ha, rfl⟩ := OpOutcome.map_eq_ok_iff.mp h
    rw [eq_of_csum_ok ha]
    rfl
  | navEnc =>
    obtain ⟨e, he, rfl⟩ := OpOutcome.map_eq_ok_iff.mp h
    exact inFormat_block he
  | navDec =>
    have hdec : (navDec (blkIn r)).map Result.record = .ok res := h
    rw [navDec_blkIn] at hdec
    obtain rfl := OpOutcome.ok.inj hdec
    have hports : driveResult (.record (recordOf (blkIn r))) = .record (portsOfBlock r.blk) :=
      congrArg ResultPorts.record (driveRecord_recordOf_bus r.blk)
    rw [hports]
    exact inRange_portsOfBlock r.blk

/-! ## The invariant -/

/-- A fault of an operation is one of the block's (60_exceptions.md rules R321 to R323). -/
theorem blockFault_of_faultOf {p : Params} {i : Instr} {k : FaultKind} {info : Byte} (h : FaultOf p i k info) :
    blockFault p k.status info := by
  have hwidth (hk : k = .widthOutOfRange ∧ info.toNat ≤ 63) : blockFault p k.status info := by
    obtain ⟨rfl, hinfo⟩ := hk
    exact .inr (.inr (.inl ⟨rfl, hinfo⟩))
  have hlength (hk : k = .lengthOutOfRange) : blockFault p k.status info := by
    subst hk
    exact .inr (.inr (.inr (.inl rfl)))
  cases i with
  | pack => exact hwidth h
  | unpackU => exact hwidth h
  | unpackS => exact hwidth h
  | unpackRot => exact hwidth h
  | armorEnc => exact hlength h
  | armorDec =>
    rcases h with h | ⟨rfl, hinfo⟩
    · exact hlength h
    · exact .inr (.inr (.inr (.inr ⟨rfl, hinfo⟩)))
  | csum => exact hlength h
  | navEnc =>
    obtain ⟨rfl, hrange⟩ := h
    exact .inl ⟨rfl, hrange⟩
  | navDec => exact h.elim

/-- Under legal parameters the answer to whatever stands on the ports is well formed (60_exceptions.md rule R330). -/
theorem answer_wf {p : Params} (hp : p.wf = true) (r : RequestPorts) : (answer p r).wf p := by
  cases hd : decodeCmd r.cmd with
  | error e =>
    have hreserved := reserved_of_decodeCmd hd
    rw [answer_of_reserved hreserved]
    exact .inr ⟨.inr (.inl ⟨rfl, hreserved⟩), rfl⟩
  | ok i =>
    rw [answer, requestOn_of_cmd (cmd_of_decodeCmd hd)]
    cases ho : block p (readRequest p r i) with
    | ok res => exact .inl ⟨rfl, rfl, _, rfl, inFormat_of_block_eq_ok hp ho⟩
    | fault k info => exact .inr ⟨blockFault_of_faultOf (faultOf_of_block_eq_fault ho), rfl⟩

/-- Settles O16: an idle step keeps the state, and any other shows the answer to its request. -/
theorem stepKeepsResponsesWellFormed : Obligations.StepKeepsResponsesWellFormed := by
  intro s t hs hstep
  rcases step_cases s t hstep with ⟨-, rfl⟩ | ⟨r, rest, -, rfl⟩
  · exact hs
  · refine ⟨hs.1, fun shown hshown => ?_⟩
    obtain rfl := Option.some.inj hshown
    exact answer_wf hs.1 r

end Sys2Proof.Machine
end

section
/-! NAV.ENC where fields overflow, and which records share a block (43_navblock_encode.md rules R204 to R206, R226 and
R232). -/

namespace Sys2Proof.Machine

/-! A pause as before the request ports, and for its reason. -/

example : True := by decide +kernel

/-! ## Overflow under the two policies (43_navblock_encode.md rules R204 to R206) -/

/-- No range is checked for the constants and the Booleans. -/
theorem fieldFits_unchecked (f : Int) : ∀ k ∈ [0, 1, 6, 14], FieldFits k f := by
  rw [List.forall_mem_cons, List.forall_mem_cons, List.forall_mem_cons, List.forall_mem_singleton]
  exact ⟨trivial, trivial, trivial, trivial⟩

/-- On the raw values of a record PACK's indications are the ranges of 43_navblock_encode.md rule R203, at every field. -/
theorem not_fits_rawValue_iff (x : NavInput) {k : Nat} (hk : k < 16) :
    (!Field.fits ⟨busWidth k, fieldSort k⟩ (rawValue x k)) = true ↔ ¬ FieldFits k (rawValue x k) := by
  rw [Bool.not_eq_true', ← Bool.not_eq_true, not_iff_not]
  by_cases hchecked : k ∈ [0, 1, 6, 14]
  · exact iff_of_true (fits_unchecked x k hchecked) (fieldFits_unchecked _ k hchecked)
  · exact fits_iff_fieldFits hk hchecked

/-- The least set index of the mask is the lowest field that does not fit. -/
theorem firstSet_ovfMask_eq_some {x : NavInput} {k : Nat} (hk : k < 16) (hmisfit : ¬ FieldFits k (rawValue x k))
    (hbelow : ∀ j < k, FieldFits j (rawValue x j)) : firstSet (ovfMask (rawFields x)) = some k := by
  have hlen : k < (ovfMask (rawFields x)).length := hk
  refine List.findIdx?_eq_some_iff_getElem.mpr ⟨hlen, ?_, fun j hj => ?_⟩
  · rw [id, getElem_ovfMask, not_fits_rawValue_iff x hk]
    exact hmisfit
  · rw [id, getElem_ovfMask, not_fits_rawValue_iff x (hj.trans hk), not_not]
    exact hbelow j hj

theorem navEnc_of_fail {p : Params} {x : NavInput} {k : Nat} (hpolicy : p.overflowPolicy = .fail)
    (hset : firstSet (ovfMask (rawFields x)) = some k) : navEnc p x = .fault .encodingOverflow (BitVec.ofNat 8 k) := by
  rw [navEnc, hpolicy, hset]

theorem navEnc_of_wrap {p : Params} (hpolicy : p.overflowPolicy = .wrap) (x : NavInput) :
    navEnc p x = .ok ⟨assemble (rawFields x), ovfMask (rawFields x)⟩ := by
  rw [navEnc, hpolicy]

theorem navEnc_of_firstSet_eq_none (p : Params) {x : NavInput} (h : firstSet (ovfMask (rawFields x)) = none) :
    navEnc p x = .ok ⟨assemble (rawFields x), ovfMask (rawFields x)⟩ := by
  rw [navEnc, h]
  cases p.overflowPolicy <;> rfl

theorem responseOf_encodingOverflow (info : Byte) :
    responseOf (.fault .encodingOverflow info) = ⟨0x04#8, info, none⟩ := rfl

/-- Settles O36: the lowest field that does not fit is the least set index of the mask. -/
theorem navEncodeReportsLowestOverflow : Obligations.NavEncodeReportsLowestOverflow := by
  intro s k hpolicy hk hmisfit hbelow
  have hset := firstSet_ovfMask_eq_some hk hmisfit hbelow
  rw [exec_navEnc_eq, navEnc_of_fail hpolicy hset, OpOutcome.map_fault, responseOf_encodingOverflow]

/-- Settles O37: under `wrap` the assembled block comes with the mask, wire by wire. -/
theorem navEncodeWrapping : Obligations.NavEncodeWrapping := by
  intro s hpolicy
  refine ⟨BitVec.ofNat 16 (valU (ovfMask (rawFields (navIn s.params s.request)))), ?_, fun k hk => ?_⟩
  · rw [exec_navEnc_eq, navEnc_of_wrap hpolicy, OpOutcome.map_ok, responseOf_block]
  · rw [getLsbD_ovfMask _ hk, not_fits_rawValue_iff _ hk]

/-! ## Records with the same block (43_navblock_encode.md rule R232) -/

/-- Equal packed bits are equal residues (40_bitfield_codec.md rule R133). -/
theorem packBits_eq_packBits_iff {w : Nat} (hpos : 1 ≤ w) (v u : Int) :
    packBits v w = packBits u w ↔ (2 ^ w : Int) ∣ v - u := by
  have hmax : w ≤ { Params.default with wmax := w : Params }.wmax := le_rfl
  simpa only [pack_of_legal_width hpos hmax, OpOutcome.map_ok, OpOutcome.ok.injEq]
    using packIsReductionModuloWidth _ v u w hpos hmax

/-- Blocks are equal exactly when their sixteen fields are (30_encoding.md rule R82). -/
theorem eq_iff_fieldBits_eq {a b : Bits} (ha : a.length = 168) (hb : b.length = 168) :
    a = b ↔ ∀ k < 16, fieldBits k a = fieldBits k b :=
  ⟨fun h _ _ => h ▸ rfl, eq_of_fieldBits_eq ha hb⟩

/-- Settles O43, field by field. -/
theorem encodedBlocksAgreeExactlyModuloWidths : Obligations.EncodedBlocksAgreeExactlyModuloWidths := by
  intro p x y d e hx hy
  rw [eq_of_navEnc_ok hx, eq_of_navEnc_ok hy, eq_iff_fieldBits_eq (length_assemble rfl) (length_assemble rfl)]
  refine forall₂_congr fun k hk => ?_
  rw [fieldBits_assemble_rawFields x hk, fieldBits_assemble_rawFields y hk,
    packBits_eq_packBits_iff (busWidth_legal k hk).1]

/-! ## The all-default block (43_navblock_encode.md rule R226) -/

/-- The assembled block is the block the spec writes out, on its 168 wires (40_bitfield_codec.md rule R144). -/
theorem assemble_eq_bitsOf_blockOf (x : NavInput) : assemble (rawFields x) = bitsOf (blockOf x).toNat 168 := by
  rw [← ofNat_valU_assemble, bitsOf_block (length_assemble rfl)]

/-- The symbols are those of the base-64 digits of the padded value (41_sixbit_armor.md rule R162). -/
theorem armorChars_eq_map_digits {x : Bits} {n m : Nat} (hn : x.length = n) (hm : (n + 5) / 6 = m) :
    armorChars x = (List.range m).map fun j => sym (valU x * 2 ^ (6 * m - n) / 64 ^ (m - 1 - j) % 64) := by
  have hlen := length_armorChars x
  rw [hn, hm] at hlen
  refine List.ext_getElem (by rw [hlen, List.length_map, List.length_range]) fun j _ hj => ?_
  rw [List.length_map, List.length_range] at hj
  rw [getElem_armorChars hn hm hj, List.getElem_map, List.getElem_range]

/-- The raw values of the defaults (10_state.md rule R39) with MMSI 0. -/
theorem rawFields_defaultInput : rawFields (defaultInput 0) =
    [1, 0, 0, 8, 128, 1023, 0, 108600000, 54600000, 3600, 511, 60, 0, 0, 0, 0] := by decide +kernel

theorem firstSet_ovfMask_defaultInput : firstSet (ovfMask (rawFields (defaultInput 0))) = none := by
  rw [rawFields_defaultInput]
  rfl

theorem toNat_blockOf_defaultInput :
    (blockOf (defaultInput 0)).toNat = 0x0400000002203FF33C8D603412140E10FFF8000000 := by decide +kernel

/-- Settles O39: the defaults fit their fields, the block is their value on its bus, and the payload is the base-64
digits of that value. -/
theorem allDefaultBlock : Obligations.AllDefaultBlock := by
  refine ⟨?_, ?_⟩
  · have hfirst := firstSet_ovfMask_defaultInput
    rw [navEnc_of_firstSet_eq_none _ hfirst, ovfMask_eq_zeros hfirst, assemble_eq_bitsOf_blockOf,
      toNat_blockOf_defaultInput]
  · have hlen : (bitsOf 0x0400000002203FF33C8D603412140E10FFF8000000 168).length ≤ Params.default.bitsMax :=
      (length_bitsOf _ _).le
    rw [armorEnc_eq_ok hlen, armorChars_eq_map_digits (length_bitsOf _ _) (m := 28) rfl, valU_bitsOf]
    decide +kernel

end Sys2Proof.Machine
end
